-- ==== Sys2Proof/Word.lean ====
section
/-! DEFINITION. The plain types the block's values have: bytes, frames, sensor bytes and masks, millisecond
counts, the numeric type `Num` and the two instantiations of its rounding (`spec/00_scope.md` section 5, rules R4, R7). -/

namespace Sys2Proof

/-- One byte of a frame. -/
abbrev Byte := BitVec 8

/-- A 40-bit word: a command frame `F` with `f[k] = F[8k+7:8k]` (rule R42), or a T-WORD `now ++ s` (rule R48). -/
abbrev Frame := BitVec 40

/-- The sensor mask `m = s[6:0]` (rules R48, R58). -/
abbrev Mask := BitVec 7

/-- An unsigned 32-bit millisecond count (rules R4, R117). -/
abbrev Millis := BitVec 32

/-- `Num` (rule R7): the exact value a floating register holds. `+0` and `-0` are one value, as rule R74 lets a
model identify them; infinities and NaNs cannot be written down, as rule R61 asks a model to refuse them. -/
abbrev Num := Rat

/-- The two instantiations of the rounding function `rnd` of rule R7. -/
inductive NumFormat where
  /-- IEEE 754 binary32, round to nearest, ties to even: the hardware's own (decision D3). -/
  | binary32
  /-- The identity on the rationals: the *exact* model of rule R7. -/
  | exact
  deriving DecidableEq, Repr, Inhabited

end Sys2Proof
end

