-- ==== Sys2Proof/Machine/Num.lean ====
section
/-! DEFINITION. The primitives of `Num` (`spec/00_scope.md` rules R7, R8): every floating operation is the exact
rational operation followed by one `rnd`. -/

namespace Sys2Proof.Machine

/-- The power of two `2 ^ e`. -/
def pow2 (e : Int) : Num :=
  if 0 ≤ e then ((2 ^ e.toNat : Nat) : Num) else 1 / ((2 ^ (-e).toNat : Nat) : Num)

/-- For `q ≠ 0`, the `k` with `2 ^ k ≤ |q| < 2 ^ (k + 1)`. -/
def ilog2 (q : Num) : Int :=
  let k : Int := (Nat.log2 q.num.natAbs : Int) - (Nat.log2 q.den : Int)
  if pow2 k ≤ |q| then k else k - 1

/-- The exponent of the unit in the last place of a binary32 number of the size of `q`: 24 significand bits, and no
unit below the smallest subnormal `2 ^ (-149)`. There is no upper bound on the exponent (log entry 3). -/
def ulpExp (q : Num) : Int := max (-149) (ilog2 q - 23)

/-- The nearest integer, ties to the even one. -/
def roundEven (x : Num) : Int :=
  let f := x.floor
  let r := x - (f : Num)
  if r < 1 / 2 then f
  else if 1 / 2 < r then f + 1
  else if f % 2 = 0 then f
  else f + 1

/-- IEEE 754 binary32 round-to-nearest, ties-to-even (rule R7). -/
def rnd32 (q : Num) : Num := (roundEven (q / pow2 (ulpExp q)) : Num) * pow2 (ulpExp q)

/-- `rnd` (rule R7), by the configured format. -/
def rnd : NumFormat → Num → Num
  | .binary32, q => rnd32 q
  | .exact, q => q

/-- `fadd(a, b) = rnd(a + b)` (rule R7). -/
def fadd (f : NumFormat) (a b : Num) : Num := rnd f (a + b)

/-- `fsub(a, b) = rnd(a - b)` (rule R7). -/
def fsub (f : NumFormat) (a b : Num) : Num := rnd f (a - b)

/-- `fmul(a, b) = rnd(a * b)` (rule R7). -/
def fmul (f : NumFormat) (a b : Num) : Num := rnd f (a * b)

/-- `fdiv(a, b) = rnd(a / b)` (rule R7); no rule divides by zero. -/
def fdiv (f : NumFormat) (a b : Num) : Num := rnd f (a / b)

/-- `i2f(n) = rnd(n)` for a mathematical integer `n` (rule R7). -/
def i2f (f : NumFormat) (n : Int) : Num := rnd f (n : Num)

/-- `flt(a, b)`: the exact comparison `a < b` (rule R7). -/
def flt (a b : Num) : Bool := decide (a < b)

/-- `fgt(a, b)`: the exact comparison `a > b` (rule R7). -/
def fgt (a b : Num) : Bool := decide (b < a)

/-- `f2i_trunc(a)`: round toward zero (rules R7, R70). -/
def f2iTrunc (a : Num) : Int := a.num.tdiv a.den

/-- `clamp(v, lo, hi)` on `Num` values (rule R8): one of the three arguments, unchanged. -/
def clamp (v lo hi : Num) : Num :=
  if flt v lo then lo else if fgt v hi then hi else v

/-- `clampi(n, lo, hi)` on mathematical integers (rule R8). -/
def clampi (n lo hi : Int) : Int :=
  if n < lo then lo else if n > hi then hi else n

/-- `q` is a value of the format: the rounding leaves it alone. -/
abbrev isNum (f : NumFormat) (q : Num) : Prop := rnd f q = q

end Sys2Proof.Machine
end

