-- ==== Sys2Proof/Config.lean ====
section
/-! DEFINITION. The configuration: the constants this spec fixes (`spec/00_scope.md` rules R4, R5), the parameters it
leaves OPEN as fields of one record (rule R6; `spec/92_eei_decisions.md` "Open parameters in one place"), what makes a
configuration legal, and the configuration of the machine after reset, whose open values have no body. -/

namespace Sys2Proof

/-! ## Constants of rules R4 and R5 -/

/-- `FRAME_BYTES` (rule R5, decision D9). -/
def Config.frameBytes : Nat := 5

/-- `SUB_START` (rule R5, decision D10). -/
def Config.subStart : Byte := 0x01#8

/-- `SUB_STOP` (rule R5, decision D10). -/
def Config.subStop : Byte := 0x02#8

/-- `SUB_TUNE` (rule R5, decision D10). -/
def Config.subTune : Byte := 0x03#8

/-- `W`, the number of line sensors (rule R4). -/
def Config.sensorCount : Nat := 7

/-- `CENTER`, the centre bit index (rule R4). -/
def Config.centerIndex : Int := 3

/-- `STEP`, the weight step (rule R4). -/
def Config.weightStep : Int := 1000

/-- `POS_MAX` (rule R4). An integer binary32 holds exactly, so it equals its own `rnd`. -/
def Config.posMax : Num := 3000

/-- `I_MAX`, the integral clamp (rule R4). -/
def Config.integralMax : Num := 100

/-- `SPEED_MAX`, the per-wheel clamp (rule R4). -/
def Config.speedMax : Int := 4000

/-- `MS_PER_S`, the milliseconds-to-seconds divisor (rule R4). -/
def Config.msPerS : Num := 1000

/-- `DT_MIN` as a decimal, 0.001 s (rule R4); a rule that writes it means `rnd` of it (rule R7). -/
def Config.dtMin : Num := 1 / 1000

/-! ## Parameters left open (rule R6) -/

/-- The five parameter registers `P[0..4]`, the document's RuntimeParameters (rules R13, R14). -/
structure Params where
  /-- `P[0]`, signed 16-bit (rule R15). -/
  baseSpeed : BitVec 16
  /-- `P[1]`, unsigned 16-bit, legal values 0..32767 (rule R16). -/
  maxCorrection : BitVec 16
  /-- `P[2]` (rule R17). -/
  kP : Num
  /-- `P[3]` (rule R17). -/
  kD : Num
  /-- `P[4]` (rule R17). -/
  kI : Num
  deriving DecidableEq, Repr, Inhabited

/-- The names of the parameter index space (rule R29). -/
inductive Param where
  | baseSpeed | maxCorrection | kP | kD | kI
  deriving DecidableEq, Repr, Inhabited

/-- Motor polarity `POL`: `+1` or `-1` (rule R78, decision D15). -/
inductive Polarity where
  | plus | minus
  deriving DecidableEq, Repr, Inhabited

/-- One pair `TUNE_LO[i]`, `TUNE_HI[i]` (rule R95, decision D14). -/
structure TuneBounds where
  lo : Int
  hi : Int
  deriving DecidableEq, Repr, Inhabited

/-- The configuration record of rule R6: fixed for a run, written by no step. -/
structure Config where
  /-- The rounding `rnd` (rule R7, decision D3). -/
  num : NumFormat
  /-- `POL` (rule R78). -/
  pol : Polarity
  /-- `RESET_P[0..4]` (rule R123). -/
  resetP : Params
  /-- `TUNE_LO[0]`, `TUNE_HI[0]`. -/
  tuneBaseSpeed : TuneBounds
  /-- `TUNE_LO[1]`, `TUNE_HI[1]`. -/
  tuneMaxCorrection : TuneBounds
  /-- `TUNE_LO[2]`, `TUNE_HI[2]`. -/
  tuneKP : TuneBounds
  /-- `TUNE_LO[3]`, `TUNE_HI[3]`. -/
  tuneKD : TuneBounds
  /-- `TUNE_LO[4]`, `TUNE_HI[4]`. -/
  tuneKI : TuneBounds
  /-- `TICK_PERIOD_MS`; no rule reads it (rule R136). -/
  tickPeriodMs : Nat
  deriving DecidableEq, Repr, Inhabited

/-- The bounds of one parameter. -/
def Config.bounds (c : Config) : Param → TuneBounds
  | .baseSpeed => c.tuneBaseSpeed
  | .maxCorrection => c.tuneMaxCorrection
  | .kP => c.tuneKP
  | .kD => c.tuneKD
  | .kI => c.tuneKI

/-- `-32768 <= TUNE_LO <= TUNE_HI <= 32767` (rule R95). -/
abbrev TuneBounds.wf (b : TuneBounds) : Prop := -32768 ≤ b.lo ∧ b.lo ≤ b.hi ∧ b.hi ≤ 32767

/-- A gain the finiteness argument of rule R73 admits: a `Num` of magnitude at most 32768 (rules R17, R123). -/
abbrev gainLegal (f : NumFormat) (k : Num) : Prop := -32768 ≤ k ∧ k ≤ 32768 ∧ Machine.isNum f k

/-- Legal contents of `P[0..4]` (rules R15, R16, R17, R123). -/
abbrev Params.legal (f : NumFormat) (p : Params) : Prop :=
  p.maxCorrection.toNat ≤ 32767 ∧ gainLegal f p.kP ∧ gainLegal f p.kD ∧ gainLegal f p.kI

/-- A legal configuration (rule R6; decisions D7, D14, D15). -/
abbrev Config.wf (c : Config) : Prop :=
  c.resetP.legal c.num ∧
  c.tuneBaseSpeed.wf ∧ (c.tuneMaxCorrection.wf ∧ 0 ≤ c.tuneMaxCorrection.lo) ∧
  c.tuneKP.wf ∧ c.tuneKD.wf ∧ c.tuneKI.wf ∧
  10 ≤ c.tickPeriodMs ∧ c.tickPeriodMs ≤ 50

/-! ## The configuration after reset

The values the document does not give are constants with no body: nothing can evaluate them, so a statement about
`State.reset` holds whatever they are. -/

/-- `POL` of the machine: open (decision D15). -/
opaque Config.openPol : Polarity

/-- `RESET_P[0]`: open (decision D7). -/
opaque Config.openBaseSpeed : BitVec 16

/-- `RESET_P[1]`: open, and any of 0..32767 (decision D7). -/
opaque Config.openMaxCorrection : BitVec 15

/-- `RESET_P[2]` before it is brought into its constraint: open (decision D7). -/
opaque Config.openKP : Num

/-- `RESET_P[3]` before it is brought into its constraint: open (decision D7). -/
opaque Config.openKD : Num

/-- `RESET_P[4]` before it is brought into its constraint: open (decision D7). -/
opaque Config.openKI : Num

/-- `TICK_PERIOD_MS` counted from its lower bound: open (rule R136). -/
opaque Config.openTickPeriod : Fin 41

/-- What `MBOX.data` holds where the spec leaves it unspecified (rules R25, R122): the `n`-th free value. -/
opaque Config.freeFrame : Nat → Frame

/-- An open gain brought into the constraint of rule R123: a binary32 value of magnitude at most 32768. Every legal
gain is its own image, so every legal `RESET_P` is covered. -/
def Config.legalGain (k : Num) : Num := Machine.clamp (Machine.rnd32 k) (-32768) 32768

/-- The bounds `TUNE_LO`, `TUNE_HI` default to (rule R95), for every index but 1. -/
def TuneBounds.int16 : TuneBounds := ⟨-32768, 32767⟩

/-- The default bounds of index 1 (rule R95). -/
def TuneBounds.nonneg : TuneBounds := ⟨0, 32767⟩

/-- The configuration of the machine after reset: binary32 (decision D3), the default TUNE bounds (rule R95), and open
values for the rest (log entries 4, 5, 6). -/
def Config.hardware : Config where
  num := .binary32
  pol := Config.openPol
  resetP :=
    { baseSpeed := Config.openBaseSpeed
      maxCorrection := Config.openMaxCorrection.zeroExtend 16
      kP := Config.legalGain Config.openKP
      kD := Config.legalGain Config.openKD
      kI := Config.legalGain Config.openKI }
  tuneBaseSpeed := .int16
  tuneMaxCorrection := .nonneg
  tuneKP := .int16
  tuneKD := .int16
  tuneKI := .int16
  tickPeriodMs := 10 + Config.openTickPeriod.val

end Sys2Proof
end

