-- ==== Sys2Proof/Syntax.lean ====
section
/-! DEFINITION. The block's instructions: one constructor per row of `spec/opcode_table.json`, ten frame rows and the
tick row (`spec/30_encoding.md` rules R41-R48, R52). Every operand bit of a row, the ignored ones too, is a field, so
an instruction and its 40-bit word carry the same information. -/

namespace Sys2Proof

/-- A decoded frame, or a tick word. -/
inductive Instr where
  /-- START_CAR; `f[2..4]` are ignored (rules R47, R92). -/
  | startCar (ignored : BitVec 24)
  /-- STOP_CAR; `f[2..4]` are ignored (rules R47, R93). -/
  | stopCar (ignored : BitVec 24)
  /-- TUNE index 0 with its mathematical-integer value (rules R45, R96). -/
  | tuneBase (value : Int)
  /-- TUNE index 1 (rules R45, R97). -/
  | tuneMaxc (value : Int)
  /-- TUNE index 2 (rules R45, R98). -/
  | tuneKp (value : Int)
  /-- TUNE index 3 (rules R45, R99). -/
  | tuneKd (value : Int)
  /-- TUNE index 4 (rules R45, R100). -/
  | tuneKi (value : Int)
  /-- ECHO with its payload `f[1..4]`, `f[1]` least significant (rules R46, R94). -/
  | echo (payload : BitVec 32)
  /-- RSVD0, opcode 0 unused/reserved: dropped (rule R101). -/
  | rsvd0 (ignored : BitVec 32)
  /-- CM0LOCAL, opcode 1, the other core's: dropped if it reaches the block (rule R101). -/
  | cm0Local (ignored : BitVec 32)
  /-- TICK with the sensor byte `s` and the timestamp `now` (rules R48, R81). -/
  | tick (s : BitVec 8) (now : Millis)
  deriving DecidableEq, Repr

/-- The two encoded inputs of the block, on distinct ports (rule R41). -/
inductive Port where
  /-- The frame port: 40-bit frames (Deliver). -/
  | frame
  /-- The tick port: 40-bit T-WORDs (Tick). -/
  | tick
  deriving DecidableEq, Repr

/-- The port an instruction's word belongs to (rule R41; the table's "port"). -/
def Instr.port : Instr → Port
  | .startCar _ => .frame
  | .stopCar _ => .frame
  | .tuneBase _ => .frame
  | .tuneMaxc _ => .frame
  | .tuneKp _ => .frame
  | .tuneKd _ => .frame
  | .tuneKi _ => .frame
  | .echo _ => .frame
  | .rsvd0 _ => .frame
  | .cm0Local _ => .frame
  | .tick _ _ => .tick

end Sys2Proof
end

