-- ==== Sys2Proof/WellFormed.lean ====
section
/-! DEFINITION. Which instructions an encoding exists for: a TUNE value is a signed 16-bit integer
(`spec/30_encoding.md` rules R45, R53); the other operands' widths are in their types. -/

namespace Sys2Proof

/-- A TUNE value in -32768..32767 (rule R45). -/
abbrev tuneValueOk (v : Int) : Prop := -32768 ≤ v ∧ v ≤ 32767

/-- The instructions that have a 40-bit word. -/
def Instr.wellFormed : Instr → Bool
  | .startCar _ => true
  | .stopCar _ => true
  | .tuneBase v => decide (tuneValueOk v)
  | .tuneMaxc v => decide (tuneValueOk v)
  | .tuneKp v => decide (tuneValueOk v)
  | .tuneKd v => decide (tuneValueOk v)
  | .tuneKi v => decide (tuneValueOk v)
  | .echo _ => true
  | .rsvd0 _ => true
  | .cm0Local _ => true
  | .tick _ _ => true

end Sys2Proof
end

