-- ==== Sys2Proof/Decode.lean ====
section
/-! DEFINITION. The decoder of frames and tick words (`spec/30_encoding.md` rules R42-R52), total on every word and on
every list of bytes, rejecting by name; and the encoder, written from the same tables. -/

namespace Sys2Proof

/-- Why a frame is an InvalidCommand that no table row names (rules R50, R107). -/
inductive DecodeError where
  /-- `f[0]` in 0x04..0xFF (rule R43). -/
  | unknownOpcode (opcode : Byte)
  /-- `f[0]` = 0x02 and `f[1]` is no sub-command (rule R44). -/
  | unknownSubcommand (sub : Byte)
  /-- A TUNE whose `f[2]` is above 4 (rule R44). -/
  | unknownParamIndex (idx : Byte)
  /-- Not `FRAME_BYTES` bytes: cannot be delivered (rule R50, decision D9). -/
  | malformedLength (n : Nat)
  deriving DecidableEq, Repr

/-! ## Fields of a frame (rules R42, R45, R48) -/

/-- `f[k] = F[8k+7:8k]` (rule R42). -/
def frameByte (F : Frame) (k : Nat) : Byte := F.extractLsb' (8 * k) 8

/-- `value = sext_16(F[39:24])`, that is `sext_16(f[4] ++ f[3])` (rules R45, R49). -/
def tuneValue (F : Frame) : Int := (F.extractLsb' 24 16).toInt

/-- The bytes `f[2..4]` (rule R47). -/
def frameTail3 (F : Frame) : BitVec 24 := F.extractLsb' 16 24

/-- The bytes `f[1..4]` (rule R46). -/
def frameTail4 (F : Frame) : BitVec 32 := F.extractLsb' 8 32

/-- The frame word of five bytes, `f[0]` first on the wire and least significant (rule R42). -/
def frameOfBytes (f0 f1 f2 f3 f4 : Byte) : Frame := f4 ++ f3 ++ f2 ++ f1 ++ f0

/-- The parameter index map (rule R29); the indices 5..255 select no register. -/
def paramIndex : Param → Byte
  | .baseSpeed => 0x00#8
  | .maxCorrection => 0x01#8
  | .kP => 0x02#8
  | .kD => 0x03#8
  | .kI => 0x04#8

/-! ## The decoder -/

/-- The third level of the opcode map: TUNE by `paramIndex` (rules R29, R44). -/
def decodeTune (idx : Byte) (v : Int) : Except DecodeError Instr :=
  if idx = paramIndex .baseSpeed then .ok (.tuneBase v)
  else if idx = paramIndex .maxCorrection then .ok (.tuneMaxc v)
  else if idx = paramIndex .kP then .ok (.tuneKp v)
  else if idx = paramIndex .kD then .ok (.tuneKd v)
  else if idx = paramIndex .kI then .ok (.tuneKi v)
  else .error (.unknownParamIndex idx)

/-- The second level: a routed command by `f[1]` (rule R44). -/
def decodeRouted (F : Frame) : Except DecodeError Instr :=
  if frameByte F 1 = Config.subStart then .ok (.startCar (frameTail3 F))
  else if frameByte F 1 = Config.subStop then .ok (.stopCar (frameTail3 F))
  else if frameByte F 1 = Config.subTune then decodeTune (frameByte F 2) (tuneValue F)
  else .error (.unknownSubcommand (frameByte F 1))

/-- `Decode(F)` (rule R49). Its INVALID outcome is `rsvd0`, `cm0Local` or a rejection by name (rule R50). -/
def decodeFrame (F : Frame) : Except DecodeError Instr :=
  if frameByte F 0 = 0x03#8 then .ok (.echo (frameTail4 F))
  else if frameByte F 0 = 0x00#8 then .ok (.rsvd0 (frameTail4 F))
  else if frameByte F 0 = 0x01#8 then .ok (.cm0Local (frameTail4 F))
  else if frameByte F 0 = 0x02#8 then decodeRouted F
  else .error (.unknownOpcode (frameByte F 0))

/-- The T-WORD `T = now ++ s`; every 40-bit value is legal (rule R48). -/
def decodeTick (T : Frame) : Instr := .tick (T.extractLsb' 0 8) (T.extractLsb' 8 32)

/-- The decoder of a port (rule R41). -/
def decode : Port → Frame → Except DecodeError Instr
  | .frame, w => decodeFrame w
  | .tick, w => .ok (decodeTick w)

/-- The frame decoder on any bytes, `f[0]` first: a list of another length is the "malformed payload length" of rule
R50, which cannot reach the block. -/
def decodeBytes : List Byte → Except DecodeError Instr
  | [f0, f1, f2, f3, f4] => decodeFrame (frameOfBytes f0 f1 f2 f3 f4)
  | bs => .error (.malformedLength bs.length)

/-! ## The encoder (rules R42, R48, R52) -/

/-- A TUNE frame: `02 03 idx lo hi` (rule R53). -/
def encodeTune (idx : Byte) (v : Int) : Frame :=
  (BitVec.ofInt 16 v ++ idx ++ Config.subTune ++ 0x02#8 : BitVec 40)

/-- The word of an instruction on its own port. -/
def encode : Instr → Frame
  | .startCar x => (x ++ Config.subStart ++ 0x02#8 : BitVec 40)
  | .stopCar x => (x ++ Config.subStop ++ 0x02#8 : BitVec 40)
  | .tuneBase v => encodeTune (paramIndex .baseSpeed) v
  | .tuneMaxc v => encodeTune (paramIndex .maxCorrection) v
  | .tuneKp v => encodeTune (paramIndex .kP) v
  | .tuneKd v => encodeTune (paramIndex .kD) v
  | .tuneKi v => encodeTune (paramIndex .kI) v
  | .echo p => (p ++ 0x03#8 : BitVec 40)
  | .rsvd0 x => (x ++ 0x00#8 : BitVec 40)
  | .cm0Local x => (x ++ 0x01#8 : BitVec 40)
  | .tick s now => (now ++ s : BitVec 40)

/-! ## The opcode table's numbering -/

/-- The instruction the opcode table reads from a 40-bit word: the frame row the word matches and, where it matches no
frame row, the one row left, TICK, whose mask is 0 (rule R52; log entry 11). -/
def decodeTable (w : Frame) : Instr :=
  match decodeFrame w with
  | .ok i => i
  | .error _ => decodeTick w

/-- The word the table's numbering gives an instruction of `nbits` bits: the bits above `nbits` are zero. -/
def tableWord (nbits w : Nat) : Frame := BitVec.ofNat 40 (w % 2 ^ nbits)

/-- What the decoder reads from an instruction whose bits are `w`; every instruction has 40 bits (rules R41, R51). -/
def decodeTableWord (nbits w : Nat) : Option Instr :=
  if nbits ≤ 40 then some (decodeTable (tableWord nbits w)) else none

end Sys2Proof
end

