-- ==== Sys2Proof/Machine/State.lean ====
section
/-! DEFINITION. The state of the block as plain data (`spec/10_state.md` rules R13-R27), the environment's schedule and
the emitted events beside it (`spec/00_scope.md` rules R9-R11), the reasons a step could stop, and the state after reset. -/

namespace Sys2Proof.Machine

/-- `CTRL`, the document's EnableFlag (rule R19). -/
structure Ctrl where
  /-- `CTRL.carStarted`: one-shot latch, never cleared but by Reset. -/
  carStarted : Bool
  /-- `CTRL.motorsEnabled`: set by START_CAR, cleared by STOP_CAR. -/
  motorsEnabled : Bool
  deriving DecidableEq, Repr

/-- `CS`, the document's ControllerState (rules R21-R24). -/
structure ControllerState where
  /-- `CS.lastError` (rule R21). -/
  lastError : Num
  /-- `CS.integral` (rule R22). -/
  integral : Num
  /-- `CS.lastTimestampMs`, unsigned 32-bit (rule R23). -/
  lastTimestampMs : Millis
  deriving DecidableEq, Repr

/-- `MBOX`, the single-slot mailbox (rule R25). -/
structure Mailbox where
  /-- `MBOX.full`, the "data available" flag. -/
  full : Bool
  /-- `MBOX.data`, 40 bits; meaningful only while `full` is set. -/
  data : Frame
  deriving DecidableEq, Repr

/-- One atomic step of the environment or of the other agent (rule R9). -/
inductive Input where
  /-- The host's `Deliver(F)` (rule R36). -/
  | deliver (F : Frame)
  /-- The block's `Tick(s, now)`, its operands packed as a T-WORD (rules R48, R81). -/
  | tick (T : Frame)
  /-- The environment's `Reset` (rule R122). -/
  | reset
  deriving DecidableEq, Repr

/-- An output event (rule R11). -/
inductive Event where
  /-- `MotorCmd(fl, bl, fr, br)` (rules R11, R79). -/
  | motorCmd (fl bl fr br : Int)
  /-- `LedMirror(m)` (rules R11, R88). -/
  | ledMirror (m : Mask)
  /-- `Echo(F)` (rules R11, R94). -/
  | echo (F : Frame)
  deriving DecidableEq, Repr

/-- The state. `p`, `ctrl`, `cs` and `mbox` are the architectural state, whole (rule R13). The other fields are the
model's own: the configuration, which no step writes (rules R6, R26; log entry 4); the schedule of environment steps still
to come, oldest first (rules R9, R53; log entry 1); the events emitted so far, oldest first (rule R11; log entry 2); and
the count of free values handed out (log entry 7). -/
structure State where
  p : Params
  ctrl : Ctrl
  cs : ControllerState
  mbox : Mailbox
  cfg : Config
  inputs : List Input
  out : List Event
  freeCount : Nat
  deriving DecidableEq, Repr

/-- The reasons a step could stop with a fault. There is none: "No failure class traps" (rule R109), and every step is a
total function of state and inputs. Safe: the type says that no fault can be raised. -/
inductive Fault
  deriving DecidableEq, Repr

/-- The reasons a step could be refused. -/
inductive Refusal where
  /-- Raised by exec for an instruction that has no meaning yet, and by nothing else; safe. No arm raises it. -/
  | notModelled (mnemonic : String)
  deriving DecidableEq, Repr

/-- What a step answers. -/
abbrev Result := Host.Outcome State Fault Refusal

/-- `CS` after Reset (rule R122, decision D6). -/
def ControllerState.reset : ControllerState := ⟨0, 0, 0#32⟩

/-- `CTRL` after Reset (rule R122, decision D8): phase Idle. -/
def Ctrl.reset : Ctrl := ⟨false, false⟩

/-- The state right after power-up under the configuration `c` (rules R27, R122): nothing scheduled, nothing emitted, and
`MBOX.data` the first free value. -/
def State.resetWith (c : Config) : State where
  p := c.resetP
  ctrl := Ctrl.reset
  cs := ControllerState.reset
  mbox := ⟨false, Config.freeFrame 0⟩
  cfg := c
  inputs := []
  out := []
  freeCount := 1

/-- The machine right after reset (rule R122): `State.resetWith` the configuration whose open values have no body. -/
def State.reset : State := State.resetWith Config.hardware

end Sys2Proof.Machine
end

