-- ==== Sys2Proof/Machine/Flags.lean ====
section
/-! DEFINITION. The block's flags: the phase, which is a function of `CTRL` (`spec/10_state.md` rule R20), the writes of
the `CTRL` bits (`spec/45_command_channel.md` rules R92, R93) and of `MBOX.full` (rules R25, R36, R37). There are no
condition codes, status word or sticky bits (rules R25, R111). -/

namespace Sys2Proof.Machine

/-- The three states of the control loop (rule R20). -/
inductive Phase where
  | idle | running | stopped
  deriving DecidableEq, Repr

/-- The phase (rule R20). -/
def Ctrl.phase (c : Ctrl) : Phase :=
  if c.carStarted then (if c.motorsEnabled then .running else .stopped) else .idle

/-- The phase of the block. -/
def State.phase (s : State) : Phase := s.ctrl.phase

/-- `CTRL.carStarted <- 1; CTRL.motorsEnabled <- 1` (rule R92). -/
def State.startMotors (s : State) : State :=
  { s with ctrl := { carStarted := true, motorsEnabled := true } }

/-- `CTRL.motorsEnabled <- 0` (rule R93). -/
def State.stopMotors (s : State) : State :=
  { s with ctrl := { s.ctrl with motorsEnabled := false } }

/-- `MBOX.full <- 0`, the slot left as it is (rule R37). -/
def State.clearFull (s : State) : State :=
  { s with mbox := { s.mbox with full := false } }

/-- `MBOX.data <- F; MBOX.full <- 1` (rule R36). -/
def State.fillMailbox (s : State) (F : Frame) : State :=
  { s with mbox := { full := true, data := F } }

/-- The ready indication of port `frame_in` (rule R119). -/
def State.frameReady (s : State) : Bool := !s.mbox.full

end Sys2Proof.Machine
end

