-- ==== Sys2Proof/Machine/Operands.lean ====
section
/-! DEFINITION. The operands of a step: the sensor mask and the elapsed time of a Tick (rules R58, R63), the clamped value
of a TUNE (rule R95), and the stored type of each parameter register (rule R29). -/

namespace Sys2Proof.Machine

/-- `m = s[6:0]`; bit 7 is ignored (rules R48, R58). -/
def sensorMask (s : BitVec 8) : Mask := s.extractLsb' 0 7

/-- `(now - CS.lastTimestampMs) mod 2^32` (rule R63, decision D32). -/
def elapsedMs (last now : Millis) : Nat := (now - last).toNat

/-- `w = clampi(v, TUNE_LO[idx], TUNE_HI[idx])`: ConfigurationOutOfRange is clamped, not rejected (rules R95, R108). -/
def tuneOperand (c : Config) (i : Param) (v : Int) : Int :=
  clampi v (c.bounds i).lo (c.bounds i).hi

/-- The stored type of each register (rules R29, R96-R100): a signed 16-bit word, an unsigned 16-bit word, or `i2f`. -/
def Params.store (f : NumFormat) (p : Params) (i : Param) (w : Int) : Params :=
  match i with
  | .baseSpeed => { p with baseSpeed := BitVec.ofInt 16 w }
  | .maxCorrection => { p with maxCorrection := BitVec.ofInt 16 w }
  | .kP => { p with kP := i2f f w }
  | .kD => { p with kD := i2f f w }
  | .kI => { p with kI := i2f f w }

end Sys2Proof.Machine
end

