-- ==== Sys2Proof/Machine/Ops.lean ====
section
/-! DEFINITION. The shared operations over the state: sequencing, emitting an event, writing a parameter register, the
host's Deliver, the Reset step, and what the failure classes do. The block has no exceptions: none of the four failure
classes traps (`spec/60_exceptions.md` rules R105-R110, R115), so in the place of taking an exception stand the drop of
an InvalidCommand (here), the clamp of a ConfigurationOutOfRange (`tuneOperand`) and the floor of a ClockStall
(`deltaTime`); a TransientIOFailure is outside the block and changes nothing (rule R106). -/

namespace Sys2Proof.Machine

/-- Run `k` on the state `r` answers; a stop stays a stop. -/
def thenRun (r : Result) (k : State → Result) : Result :=
  match r with
  | .next s => k s
  | .fault e => .fault e
  | .refused e => .refused e

/-- `emit E`: append to the outputs (rule R11). -/
def State.emit (s : State) (e : Event) : State := { s with out := s.out ++ [e] }

/-- The write of one whole parameter register with the clamped TUNE value (rules R32, R95-R100). -/
def State.tune (s : State) (i : Param) (v : Int) : State :=
  { s with p := Params.store s.cfg.num s.p i (tuneOperand s.cfg i v) }

/-- InvalidCommand: silently dropped (rules R50, R101, R107). -/
def dropInvalid (s : State) : State := s

/-- `Deliver(F)`: accepted into an empty mailbox, dropped while a frame is pending (rule R36, decision D16). -/
def deliver (F : Frame) (s : State) : State :=
  if s.mbox.full then s else s.fillMailbox F

/-- The Reset step (rule R122): every element of the architectural state, and no event. `MBOX.data` becomes the next
free value. What the environment still has scheduled, the events already emitted and the configuration are not the
block's state and stay. -/
def resetStep (s : State) : State :=
  { s with
    p := s.cfg.resetP
    ctrl := Ctrl.reset
    cs := ControllerState.reset
    mbox := ⟨false, Config.freeFrame s.freeCount⟩
    freeCount := s.freeCount + 1 }

end Sys2Proof.Machine
end

