-- ==== Sys2Proof/Machine/Tune.lean ====
section
/-! DEFINITION. TUNE with its five parameter indices (`spec/45_command_channel.md` rules R95-R100). -/

namespace Sys2Proof.Machine

/-- TUNE.BASE: `P[0] <- w` (rule R96). -/
def execTuneBase (v : Int) (s : State) : Result := .next (s.tune .baseSpeed v)

/-- TUNE.MAXC: `P[1] <- w` (rule R97). -/
def execTuneMaxc (v : Int) (s : State) : Result := .next (s.tune .maxCorrection v)

/-- TUNE.KP: `P[2] <- i2f(w)` (rule R98). -/
def execTuneKp (v : Int) (s : State) : Result := .next (s.tune .kP v)

/-- TUNE.KD: `P[3] <- i2f(w)` (rule R99). -/
def execTuneKd (v : Int) (s : State) : Result := .next (s.tune .kD v)

/-- TUNE.KI: `P[4] <- i2f(w)` (rule R100). -/
def execTuneKi (v : Int) (s : State) : Result := .next (s.tune .kI v)

end Sys2Proof.Machine
end

