-- ==== Sys2Proof/Machine/Command.lean ====
section
/-! DEFINITION. The Command Channel (`spec/45_command_channel.md`): START_CAR, STOP_CAR, ECHO and the dropped frames, the
dispatch `Exec(F)` of a drained frame (rule R91), and the drain of the mailbox (`spec/20_memory.md` rule R37). -/

namespace Sys2Proof.Machine

/-- START_CAR (rule R92); the ignored bytes play no part. -/
def execStartCar (_ignored : BitVec 24) (s : State) : Result := .next s.startMotors

/-- STOP_CAR (rule R93). -/
def execStopCar (_ignored : BitVec 24) (s : State) : Result := .next s.stopMotors

/-- ECHO: emit the whole 40-bit frame, unchanged (rule R94). -/
def execEcho (payload : BitVec 32) (s : State) : Result :=
  .next (s.emit (.echo (encode (.echo payload))))

/-- RSVD0: an InvalidCommand (rule R101). -/
def execRsvd0 (_ignored : BitVec 32) (s : State) : Result := .next (dropInvalid s)

/-- CM0LOCAL: an InvalidCommand if it reaches the block (rule R101, decision D11). -/
def execCm0Local (_ignored : BitVec 32) (s : State) : Result := .next (dropInvalid s)

/-- `Exec(F)` (rule R91). A frame never decodes to TICK, which has a port of its own (rule R41); that arm drops, as
every frame that is no command is dropped. -/
def execFrame (F : Frame) (s : State) : Result :=
  match decodeFrame F with
  | .ok (.startCar x) => execStartCar x s
  | .ok (.stopCar x) => execStopCar x s
  | .ok (.tuneBase v) => execTuneBase v s
  | .ok (.tuneMaxc v) => execTuneMaxc v s
  | .ok (.tuneKp v) => execTuneKp v s
  | .ok (.tuneKd v) => execTuneKd v s
  | .ok (.tuneKi v) => execTuneKi v s
  | .ok (.echo p) => execEcho p s
  | .ok (.rsvd0 x) => execRsvd0 x s
  | .ok (.cm0Local x) => execCm0Local x s
  | .ok (.tick _ _) => .next (dropInvalid s)
  | .error _ => .next (dropInvalid s)

/-- `Drain()` (rule R37): copy the frame, clear the flag, then act on the copy. -/
def drain (s : State) : Result :=
  if s.mbox.full then execFrame s.mbox.data s.clearFull else .next s

end Sys2Proof.Machine
end

