-- ==== Sys2Proof/Machine/Estimator.lean ====
section
/-! DEFINITION. The Position Estimator, operation EST (`spec/41_position_estimator.md` rules R55-R60). -/

namespace Sys2Proof.Machine

/-- `weight[i] = (i - CENTER) * STEP` (rule R55). -/
def weight (i : Nat) : Int := ((i : Int) - Config.centerIndex) * Config.weightStep

/-- The active sensors of a mask, in order of index. -/
def activeSensors (m : Mask) : List Nat :=
  (List.range Config.sensorCount).filter (fun i => m.getLsbD i)

/-- `sum`, the weights of the set bits added up as a mathematical integer (rule R56). -/
def weightSum (m : Mask) : Int := ((activeSensors m).map weight).sum

/-- `n`, the active count (rule R56). -/
def activeCount (m : Mask) : Nat := (activeSensors m).length

/-- The output when no sensor is active (rule R57): the strict test `le < 0`. -/
def lostLine (le : Num) : Num := if flt le 0 then -Config.posMax else Config.posMax

/-- `EST(m, le)` (rules R56, R57). -/
def est (f : NumFormat) (m : Mask) (le : Num) : Num :=
  if 0 < activeCount m then fdiv f (i2f f (weightSum m)) (i2f f (activeCount m)) else lostLine le

end Sys2Proof.Machine
end

