-- ==== Sys2Proof/Machine/Mixer.lean ====
section
/-! DEFINITION. The Drive Mixer, operation MIX, and the motor polarity (`spec/43_drive_mixer.md` rules R75-R80). -/

namespace Sys2Proof.Machine

/-- One wheel side clamped to `[-SPEED_MAX, +SPEED_MAX]` (rule R76). -/
def clampSpeed (n : Int) : Int := clampi n (-Config.speedMax) Config.speedMax

/-- `left` of `MIX(base, corr)` (rule R76): a mathematical-integer sum, then the clamp. -/
def mixLeft (base corr : Int) : Int := clampSpeed (base + corr)

/-- `right` of `MIX(base, corr)` (rule R76). -/
def mixRight (base corr : Int) : Int := clampSpeed (base - corr)

/-- `POL * v` (rule R78). -/
def applyPolarity : Polarity → Int → Int
  | .plus, v => v
  | .minus, v => -v

/-- `MotorCmd(POL*left, POL*left, POL*right, POL*right)` (rules R78, R79). -/
def motorEvent (pol : Polarity) (left right : Int) : Event :=
  .motorCmd (applyPolarity pol left) (applyPolarity pol left) (applyPolarity pol right) (applyPolarity pol right)

/-- The zero-speed command of a Stopped tick (rule R85). -/
def zeroSpeed : Event := .motorCmd 0 0 0 0

end Sys2Proof.Machine
end

