-- ==== Sys2Proof/Machine/Pid.lean ====
section
/-! DEFINITION. The PID Controller, operation PID (`spec/42_pid_controller.md` rules R61-R72), one definition per step. -/

namespace Sys2Proof.Machine

/-- `err = fsub(0, pos)` (rule R62). -/
def errorOf (f : NumFormat) (pos : Num) : Num := fsub f 0 pos

/-- `DT_MIN` as the constant of rule R63, `rnd(0.001)`. -/
def dtFloor (f : NumFormat) : Num := rnd f Config.dtMin

/-- The quotient of step 1 before the floor (rule R63). -/
def rawDeltaTime (f : NumFormat) (d : Nat) : Num := fdiv f (i2f f d) Config.msPerS

/-- Step 1, `dt` in seconds, floored (rules R63, R110). -/
def deltaTime (f : NumFormat) (d : Nat) : Num :=
  if flt (rawDeltaTime f d) (dtFloor f) then dtFloor f else rawDeltaTime f d

/-- Step 2, `p = fmul(P[2], err)` (rule R64). -/
def pTerm (f : NumFormat) (kP err : Num) : Num := fmul f kP err

/-- Step 3, `integ` (rule R65). -/
def nextIntegral (f : NumFormat) (integral err dt : Num) : Num :=
  clamp (fadd f integral (fmul f err dt)) (-Config.integralMax) Config.integralMax

/-- Step 4, `i = fmul(P[4], integ)` (rule R67). -/
def iTerm (f : NumFormat) (kI integ : Num) : Num := fmul f kI integ

/-- Step 5, `dd = fdiv(fmul(P[3], fsub(err, lastError)), dt)` (rule R68). -/
def dTerm (f : NumFormat) (kD err lastError dt : Num) : Num :=
  fdiv f (fmul f kD (fsub f err lastError)) dt

/-- The sum of step 6, `(p + i) + dd` (rule R69). -/
def termSum (f : NumFormat) (p i dd : Num) : Num := fadd f (fadd f p i) dd

/-- The clamp of step 6 to `-mc..+mc` with `mc = i2f(P[1])` (rule R69). -/
def limitCorrection (f : NumFormat) (maxCorrection : BitVec 16) (sum : Num) : Num :=
  clamp sum (-(i2f f maxCorrection.toNat)) (i2f f maxCorrection.toNat)

/-- `dt` of an invocation at `now`. -/
def pidDt (f : NumFormat) (cs : ControllerState) (now : Millis) : Num :=
  deltaTime f (elapsedMs cs.lastTimestampMs now)

/-- `integ` of an invocation. -/
def pidIntegral (f : NumFormat) (cs : ControllerState) (err : Num) (now : Millis) : Num :=
  nextIntegral f cs.integral err (pidDt f cs now)

/-- `sum` of an invocation: steps 1-6 before the clamp. -/
def pidSum (f : NumFormat) (p : Params) (cs : ControllerState) (err : Num) (now : Millis) : Num :=
  termSum f (pTerm f p.kP err) (iTerm f p.kI (pidIntegral f cs err now))
    (dTerm f p.kD err cs.lastError (pidDt f cs now))

/-- `corr`, the value `PID(err, now)` returns (rules R69, R70, R72). -/
def pidCorrection (f : NumFormat) (p : Params) (cs : ControllerState) (err : Num) (now : Millis) : Int :=
  f2iTrunc (limitCorrection f p.maxCorrection (pidSum f p cs err now))

/-- `CS` after `PID(err, now)` (rules R65, R71, R72). -/
def pidState (f : NumFormat) (cs : ControllerState) (err : Num) (now : Millis) : ControllerState where
  lastError := err
  integral := pidIntegral f cs err now
  lastTimestampMs := now

end Sys2Proof.Machine
end

