-- ==== Sys2Proof/Machine/Tick.lean ====
section
/-! DEFINITION. The Control Loop Driver, operation TICK (`spec/44_control_loop_tick.md` rules R81-R90). -/

namespace Sys2Proof.Machine

/-- `err` of a Running tick: EST on the mask and the stored error, then rule R62 (rules R81, R84). -/
def tickError (s : State) (m : Mask) : Num := errorOf s.cfg.num (est s.cfg.num m s.cs.lastError)

/-- `corr` of a Running tick (rules R81, R84). -/
def tickCorrection (s : State) (m : Mask) (now : Millis) : Int :=
  pidCorrection s.cfg.num s.p s.cs (tickError s m) now

/-- The `MotorCmd` of a Running tick (rules R76, R78, R79, R81). -/
def tickMotor (s : State) (m : Mask) (now : Millis) : Event :=
  motorEvent s.cfg.pol (mixLeft s.p.baseSpeed.toInt (tickCorrection s m now))
    (mixRight s.p.baseSpeed.toInt (tickCorrection s m now))

/-- The Running arm (rule R84): EST, PID, MIX, then `MotorCmd` and `LedMirror`, in that order. -/
def runPipeline (s : State) (m : Mask) (now : Millis) : State :=
  (({ s with cs := pidState s.cfg.num s.cs (tickError s m) now }).emit (tickMotor s m now)).emit (.ledMirror m)

/-- The phase arm, evaluated on the state the drain left (rules R81-R85). -/
def phaseArm (sb : BitVec 8) (now : Millis) (s : State) : Result :=
  match s.phase with
  | .idle => .next s
  | .running => .next (runPipeline s (sensorMask sb) now)
  | .stopped => .next (s.emit zeroSpeed)

/-- TICK (rule R81): drain first, in every phase (rule R82), then the phase arm. -/
def execTick (sb : BitVec 8) (now : Millis) (s : State) : Result :=
  thenRun (drain s) (phaseArm sb now)

end Sys2Proof.Machine
end

