-- ==== Sys2Proof/Machine/Dispatch.lean ====
section
/-! DEFINITION. One arm per instruction of the opcode table. -/

namespace Sys2Proof.Machine

def exec (i : Instr) (s : State) : Host.Outcome State Fault Refusal :=
  match i with
  | .startCar x => Sys2Proof.Machine.execStartCar x s
  | .stopCar x => Sys2Proof.Machine.execStopCar x s
  | .tuneBase v => Sys2Proof.Machine.execTuneBase v s
  | .tuneMaxc v => Sys2Proof.Machine.execTuneMaxc v s
  | .tuneKp v => Sys2Proof.Machine.execTuneKp v s
  | .tuneKd v => Sys2Proof.Machine.execTuneKd v s
  | .tuneKi v => Sys2Proof.Machine.execTuneKi v s
  | .echo p => Sys2Proof.Machine.execEcho p s
  | .rsvd0 x => Sys2Proof.Machine.execRsvd0 x s
  | .cm0Local x => Sys2Proof.Machine.execCm0Local x s
  | .tick sb now => Sys2Proof.Machine.execTick sb now s

end Sys2Proof.Machine
end

