-- ==== Sys2Proof/Machine/Schedule.lean ====
section
/-! DEFINITION. The environment's steps (`spec/00_scope.md` rule R9; `spec/60_exceptions.md` rules R112-R114, R119): how
the block performs one scheduled input, what it does when none is scheduled, and where a word of the opcode table has
to stand for the very next step to run it. -/

namespace Sys2Proof.Machine

/-- The block with the environment's remaining schedule. -/
def State.withInputs (s : State) (rest : List Input) : State := { s with inputs := rest }

/-- One atomic step (rules R9, R33): Deliver, Tick, or Reset. -/
def performInput : Input → State → Result
  | .deliver F, s => .next (deliver F s)
  | .tick T, s => exec (decodeTick T) s
  | .reset, s => .next (resetStep s)

/-- No step is scheduled: nothing happens and nothing halts (rule R89; log entry 1). -/
def idleStep (s : State) : Result := .next s

/-- The T-WORD of the Tick that drains a placed frame: `s` = 0, `now` = 0. -/
def drainingTick : Frame := 0#40

/-- Place a table word so that the next step runs it: a frame into the mailbox with a Tick scheduled to drain it, any
other word as the T-WORD of the next Tick (log entry 12). -/
def placeWord (s : State) (w : Frame) : State :=
  match decodeFrame w with
  | .ok _ => (s.fillMailbox w).withInputs (.tick drainingTick :: s.inputs)
  | .error _ => s.withInputs (.tick w :: s.inputs)

end Sys2Proof.Machine
end

