-- ==== Sys2Proof/Machine/Step.lean ====
section
/-! DEFINITION. One step of the machine: the next scheduled step of the environment, performed whole (rule R33). -/

namespace Sys2Proof.Machine

/-- One step (rules R9, R33, R34(a)): the oldest scheduled input is taken and performed. -/
def step (s : State) : Host.Outcome State Fault Refusal :=
  match s.inputs with
  | [] => idleStep s
  | i :: rest => performInput i (s.withInputs rest)

/-- `s` with the instruction whose bits are `w` placed where the next step takes its instruction. -/
def State.withFetchWord (s : State) (nbits w : Nat) : State := placeWord s (tableWord nbits w)

end Sys2Proof.Machine
end

