-- ==== Sys2Proof/Safety.lean ====
section
/-! DEFINITION. What counts as a safe run, in the terms the statements use: the shape of an emitted event
(`spec/43_drive_mixer.md` rules R77, R79), the invariant of the block (`spec/00_scope.md` rule R12 with rules R15-R17,
R21, R22, R73), and the two ways a statement compares event sequences. -/

namespace Sys2Proof.Machine

/-- A wheel speed in [-4000, +4000] (rule R77). -/
abbrev speedOk (v : Int) : Prop := -4000 ≤ v ∧ v ≤ 4000

/-- A `MotorCmd` has equal front and back values, in range (rules R77, R79); the other events carry any payload. -/
def Event.ok : Event → Bool
  | .motorCmd fl bl fr br => decide (fl = bl ∧ fr = br ∧ speedOk fl ∧ speedOk fr)
  | .ledMirror _ => true
  | .echo _ => true

/-- The invariant of the block: every reachable state has it. -/
structure Inv (s : State) : Prop where
  /-- The configuration is legal (rules R6, R95, R123). -/
  cfgLegal : s.cfg.wf
  /-- `P` holds legal values (rules R15, R16, R17, R73). -/
  paramsLegal : s.p.legal s.cfg.num
  /-- `CS.integral` lies in [-100, +100] (rules R12(b), R22, R66). -/
  integralInRange : -100 ≤ s.cs.integral ∧ s.cs.integral ≤ 100
  /-- `CS.lastError` lies in [-3000, +3000] (rules R12(a), R21). -/
  lastErrorInRange : -3000 ≤ s.cs.lastError ∧ s.cs.lastError ≤ 3000
  /-- `CS.integral` is a value of the number format (rule R22). -/
  integralIsNum : isNum s.cfg.num s.cs.integral
  /-- `CS.lastError` is a value of the number format (rule R21). -/
  lastErrorIsNum : isNum s.cfg.num s.cs.lastError
  /-- Motors are enabled only once the car has been started (rules R19, R92). -/
  enabledImpliesStarted : s.ctrl.motorsEnabled = true → s.ctrl.carStarted = true
  /-- Every emitted event is well formed (rules R12(c), R77, R79). -/
  eventsOk : ∀ e ∈ s.out, e.ok = true

/-- An event with its motor payload hidden: what an observer of everything but the motor port sees. -/
def Event.hideMotor : Event → Event
  | .motorCmd _ _ _ _ => .motorCmd 0 0 0 0
  | .ledMirror m => .ledMirror m
  | .echo F => .echo F

/-- An event with its motor payload negated. -/
def Event.negateMotor : Event → Event
  | .motorCmd fl bl fr br => .motorCmd (-fl) (-bl) (-fr) (-br)
  | .ledMirror m => .ledMirror m
  | .echo F => .echo F

/-- The other polarity. -/
def otherPolarity : Polarity → Polarity
  | .plus => .minus
  | .minus => .plus

/-- The INVALID set of rule R50, by the bytes of the frame. -/
abbrev invalidFrame (F : Frame) : Prop :=
  (frameByte F 0 ≠ 0x02#8 ∧ frameByte F 0 ≠ 0x03#8) ∨
  (frameByte F 0 = 0x02#8 ∧ frameByte F 1 ≠ 0x01#8 ∧ frameByte F 1 ≠ 0x02#8 ∧ frameByte F 1 ≠ 0x03#8) ∨
  (frameByte F 0 = 0x02#8 ∧ frameByte F 1 = 0x03#8 ∧ 4 < (frameByte F 2).toNat)

/-- What a decoder's answer says the frame is: a command, or INVALID (rules R49, R50). -/
def isInvalidDecode : Except DecodeError Instr → Bool
  | .ok (.rsvd0 _) => true
  | .ok (.cm0Local _) => true
  | .error _ => true
  | .ok _ => false

/-- The phase a drained frame leaves (rule R86's table). -/
def phaseAfter (q : Phase) : Instr → Phase
  | .startCar _ => .running
  | .stopCar _ => if q = .idle then .idle else .stopped
  | _ => q

end Sys2Proof.Machine
end

