-- ==== Sys2Proof/Certificates/Slice0/Obligations.lean ====
section
/-! DEFINITION. What the spec's numbered rules say the block does, as statements about the model. Every statement
about a state holds for every configuration, since the configuration is a field of the state; nothing here rests on a
value the model chose for an open parameter. -/

open Sys2Proof Sys2Proof.Machine

/-! ## Numbers (`spec/00_scope.md` rules R7, R8) -/

/-- Rule R7 (binary32 is the spec's decision D3; the model bounds no exponent from above, log entry 3): the values of
the format are the `m * 2^e` with a significand `m` of 24 bits and `e` at least -149; binary32 rounding answers one of
them, leaves each of them alone, and none is nearer; the integers up to 2^24 and the order of values are kept. -/
def Obligations.BinaryRoundingIsNearestValue : Prop :=
  (∀ q : ℚ, ∃ m e : Int, |m| < 2 ^ 24 ∧ -149 ≤ e ∧ rnd32 q = m * (2 : ℚ) ^ e) ∧
  (∀ m e : Int, |m| < 2 ^ 24 → -149 ≤ e → rnd32 (m * (2 : ℚ) ^ e) = m * (2 : ℚ) ^ e) ∧
  (∀ (q : ℚ) (m e : Int), |m| < 2 ^ 24 → -149 ≤ e → |rnd32 q - q| ≤ |m * (2 : ℚ) ^ e - q|) ∧
  (∀ q : ℚ, rnd32 (rnd32 q) = rnd32 q ∧ (∀ x : ℚ, rnd32 x = x → |rnd32 q - q| ≤ |x - q|) ∧
    (∀ n : Int, -(2 ^ 24) ≤ n → n ≤ 2 ^ 24 → rnd32 (n : ℚ) = n) ∧ (∀ r : ℚ, q ≤ r → rnd32 q ≤ rnd32 r))

/-- Rule R7 (the spec's decision D3): binary32 rounding breaks ties to the even significand: where another
representable value is just as near, the result is an even multiple of the unit in its last place. -/
def Obligations.BinaryRoundingBreaksTiesToEven : Prop :=
  ∀ q x : ℚ, rnd32 x = x → x ≠ rnd32 q → |x - q| = |rnd32 q - q| →
    ∃ m : Int, m % 2 = 0 ∧ rnd32 q = m * pow2 (ulpExp q)

/-- Rule R8 (the spec's decision D29): the two clamps. -/
def Obligations.ClampPicksBoundOrValue : Prop :=
  (∀ v lo hi : ℚ, lo ≤ hi →
    (v < lo → clamp v lo hi = lo) ∧ (hi < v → clamp v lo hi = hi) ∧ (lo ≤ v → v ≤ hi → clamp v lo hi = v)) ∧
  (∀ v lo hi : Int, lo ≤ hi →
    (v < lo → clampi v lo hi = lo) ∧ (hi < v → clampi v lo hi = hi) ∧ (lo ≤ v → v ≤ hi → clampi v lo hi = v))

/-- Rule R70 with `f2i_trunc` of rule R7 (toward zero is the spec's own reading of "truncated"): truncation keeps the
sign, never increases the magnitude, and loses less than one. -/
def Obligations.TruncationIsTowardZero : Prop :=
  ∀ a : ℚ, (0 ≤ a → 0 ≤ f2iTrunc a ∧ (f2iTrunc a : ℚ) ≤ a ∧ a < f2iTrunc a + 1) ∧
    (a ≤ 0 → f2iTrunc a ≤ 0 ∧ a ≤ (f2iTrunc a : ℚ) ∧ (f2iTrunc a : ℚ) - 1 < a)

/-! ## Encoding (`spec/30_encoding.md`) -/

/-- Frames written out byte by byte from the table of rule R52 and the vectors V-CMD decode to what they stand for.
The sub-command bytes 01, 02, 03 are the spec's decision D10 (log entry 10), the packing of the T-WORD its decision
D2. -/
def Obligations.WrittenOutFramesDecode : Prop :=
  decodeFrame 0b0000000000000000000000000000000100000010#40 = .ok (.startCar 0#24) ∧
  decodeFrame 0b1111111111111111111111110000000100000010#40 = .ok (.startCar 0xFFFFFF#24) ∧
  decodeFrame 0b0101011000110100000100100000001000000010#40 = .ok (.stopCar 0x563412#24) ∧
  decodeFrame 0b1000000000000000000000000000001100000010#40 = .ok (.tuneBase (-32768)) ∧
  decodeFrame 0b1111111111111011000000010000001100000010#40 = .ok (.tuneMaxc (-5)) ∧
  decodeFrame 0b0000001011101110000000100000001100000010#40 = .ok (.tuneKp 750) ∧
  decodeFrame 0b1111111111111111000000110000001100000010#40 = .ok (.tuneKd (-1)) ∧
  decodeFrame 0b1111111111111101000001000000001100000010#40 = .ok (.tuneKi (-3)) ∧
  decodeFrame 0b1110111110111110101011011101111000000011#40 = .ok (.echo 0xEFBEADDE#32) ∧
  decodeFrame 0b0000010000000011000000100000000100000000#40 = .ok (.rsvd0 0x04030201#32) ∧
  decodeFrame 0b0000000000000000000000000000000100000001#40 = .ok (.cm0Local 0x00000001#32) ∧
  decodeTick 0b0000000000000000000000111110100010010000#40 = .tick 0x90#8 1000#32

/-- Every instruction that has a word is read back from it on its own port, with every operand at every value. -/
def Obligations.DecodeReadsBackEveryEncoding : Prop :=
  ∀ i : Instr, i.wellFormed = true → decode i.port (encode i) = .ok i

/-- Decoding loses no bit: a word that decodes is the encoding of what it decodes to, which is well formed. -/
def Obligations.EncodeReturnsTheDecodedWord : Prop :=
  ∀ (q : Port) (w : Frame) (i : Instr), decode q w = .ok i → encode i = w ∧ i.port = q ∧ i.wellFormed = true

/-- Rule R49 with rule R44 (the order of the checks is the spec's decision D22, the sub-command bytes 1, 2, 3 its
decision D10, log entry 10): `Decode(F)`, outcome by outcome, on the bytes `F[7:0]`, `F[15:8]`, `F[23:16]` and the
value `F[39:24]` computed on numbers. -/
def Obligations.DecodeFollowsItsOrderedChecks : Prop :=
  ∀ (F : Frame) (f0 f1 f2 n : Nat) (v : Int),
    f0 = F.toNat % 256 → f1 = F.toNat / 2 ^ 8 % 256 → f2 = F.toNat / 2 ^ 16 % 256 → n = F.toNat / 2 ^ 24 →
    v = (if n < 2 ^ 15 then (n : Int) else (n : Int) - 2 ^ 16) →
    (f0 = 3 → ∃ p, decodeFrame F = .ok (.echo p) ∧ encode (.echo p) = F) ∧
    (f0 ≠ 3 → f0 ≠ 2 → isInvalidDecode (decodeFrame F) = true) ∧
    (f0 = 2 → f1 = 1 → ∃ x, decodeFrame F = .ok (.startCar x)) ∧
    (f0 = 2 → f1 = 2 → ∃ x, decodeFrame F = .ok (.stopCar x)) ∧
    (f0 = 2 → f1 ≠ 1 → f1 ≠ 2 → f1 ≠ 3 → isInvalidDecode (decodeFrame F) = true) ∧
    (f0 = 2 → f1 = 3 → f2 = 0 → decodeFrame F = .ok (.tuneBase v)) ∧
    (f0 = 2 → f1 = 3 → f2 = 1 → decodeFrame F = .ok (.tuneMaxc v)) ∧
    (f0 = 2 → f1 = 3 → f2 = 2 → decodeFrame F = .ok (.tuneKp v)) ∧
    (f0 = 2 → f1 = 3 → f2 = 3 → decodeFrame F = .ok (.tuneKd v)) ∧
    (f0 = 2 → f1 = 3 → f2 = 4 → decodeFrame F = .ok (.tuneKi v)) ∧
    (f0 = 2 → f1 = 3 → 4 < f2 → isInvalidDecode (decodeFrame F) = true)

/-- Rule R45 (two's complement is the spec's own reading of "signed"): the TUNE value is little-endian two's
complement, unscaled, and in -32768..32767. -/
def Obligations.TuneValueIsLittleEndianSigned : Prop :=
  (∀ f0 f1 f2 f3 f4 : Byte,
    frameByte (frameOfBytes f0 f1 f2 f3 f4) 2 = f2 ∧
    tuneValue (frameOfBytes f0 f1 f2 f3 f4) =
      (if f4.toNat < 128 then (256 * f4.toNat + f3.toNat : Int) else (256 * f4.toNat + f3.toNat : Int) - 65536) ∧
    tuneValueOk (tuneValue (frameOfBytes f0 f1 f2 f3 f4))) ∧
  (∀ f0 f1 f2 : Byte, tuneValue (frameOfBytes f0 f1 f2 0xEE#8 0x02#8) = 750 ∧
    tuneValue (frameOfBytes f0 f1 f2 0xFB#8 0xFF#8) = -5 ∧ tuneValue (frameOfBytes f0 f1 f2 0x00#8 0x80#8) = -32768)

/-! ## Frames (`spec/45_command_channel.md`) -/

/-- Rule R92 (that one command writes both bits is the spec's decision D24, its byte `f[1]` = 01 the decision D10, log
entry 10, the ignored bytes the decision D12): START_CAR sets both enable bits and changes nothing else; in phase
Running it changes nothing; the bytes `f[2..4]` play no part. -/
def Obligations.StartCarSetsBothEnableBits : Prop :=
  (∀ (x : BitVec 24) (s : State), exec (.startCar x) s = .next { s with ctrl := ⟨true, true⟩ }) ∧
  (∀ (x : BitVec 24) (s : State), s.phase = .running → exec (.startCar x) s = .next s) ∧
  (∀ F : Frame, frameByte F 0 = 0x02#8 → frameByte F 1 = 0x01#8 → ∃ x, decodeFrame F = .ok (.startCar x))

/-- Rule R93 (what STOP_CAR writes is the spec's decision D24, its byte `f[1]` = 02 the decision D10, log entry 10,
the ignored bytes the decision D12): STOP_CAR clears motorsEnabled only; in phase Idle the phase stays Idle; the bytes
`f[2..4]` play no part. -/
def Obligations.StopCarClearsMotorsEnabledOnly : Prop :=
  (∀ (x : BitVec 24) (s : State),
    exec (.stopCar x) s = .next { s with ctrl := ⟨s.ctrl.carStarted, false⟩ }) ∧
  (∀ (x : BitVec 24) (s : State), s.phase = .idle → ∃ t, exec (.stopCar x) s = .next t ∧ t.phase = .idle) ∧
  (∀ F : Frame, frameByte F 0 = 0x02#8 → frameByte F 1 = 0x02#8 → ∃ x, decodeFrame F = .ok (.stopCar x))

/-- Rule R94 (the spec's decision D13): ECHO emits the whole frame unchanged, changes no state, and leaves the
pipeline of the Tick that drains it alone; its event comes first. That the drained slot keeps its data is log entry
13. -/
def Obligations.EchoEmitsItsFrame : Prop :=
  ∀ (F : Frame) (p : BitVec 32), decodeFrame F = .ok (.echo p) →
    (∀ s : State, exec (.echo p) s = .next { s with out := s.out ++ [.echo F] }) ∧
    (∀ (sb : BitVec 8) (now : Millis) (s : State), s.mbox.full = true → s.mbox.data = F →
      exec (.tick sb now) s =
        phaseArm sb now { s with mbox := ⟨false, s.mbox.data⟩, out := s.out ++ [.echo F] })

/-- Rule R96 with rule R95 (the clamp and its bounds are the spec's decision D14, the match the decision D10, log
entry 10; a value no frame can carry is log entry 17): TUNE index 0 stores the clamped value as a signed 16-bit
integer, as it is; nothing else changes; any value in -32768..32767 is storable; the frame is the one with match
0x0000000302. -/
def Obligations.TuneBaseStoresSignedValue : Prop :=
  (∀ F : Frame, F &&& 0x0000FFFFFF#40 = 0x0000000302#40 → decodeFrame F = .ok (.tuneBase (tuneValue F))) ∧
  (∀ (v : Int) (s : State), s.cfg.wf →
    ∃ b : BitVec 16, exec (.tuneBase v) s = .next { s with p := { s.p with baseSpeed := b } } ∧
      b.toInt = clampi v s.cfg.tuneBaseSpeed.lo s.cfg.tuneBaseSpeed.hi) ∧
  (∀ (w : Int) (s : State), s.cfg.tuneBaseSpeed.lo ≤ w → w ≤ s.cfg.tuneBaseSpeed.hi → -32768 ≤ w → w ≤ 32767 →
    ∃ b : BitVec 16, exec (.tuneBase w) s = .next { s with p := { s.p with baseSpeed := b } } ∧ b.toInt = w)

/-- Rule R97 with rule R95 (the clamp and its bounds are the spec's decision D14, the match the decision D10, log
entry 10; a value no frame can carry is log entry 17): TUNE index 1 stores the clamped value, in 0..32767, as an
unsigned integer; a negative value becomes the lower bound, 0 by default, and is not reread as a large number; nothing
else changes; the frame is the one with match 0x0000010302. -/
def Obligations.TuneMaxCorrectionStoresUnsignedValue : Prop :=
  (∀ F : Frame, F &&& 0x0000FFFFFF#40 = 0x0000010302#40 → decodeFrame F = .ok (.tuneMaxc (tuneValue F))) ∧
  ∀ (v : Int) (s : State), s.cfg.wf →
    ∃ m : BitVec 16, exec (.tuneMaxc v) s = .next { s with p := { s.p with maxCorrection := m } } ∧
      (m.toNat : Int) = clampi v s.cfg.tuneMaxCorrection.lo s.cfg.tuneMaxCorrection.hi ∧ m.toNat ≤ 32767 ∧
      (v < 0 → (m.toNat : Int) = s.cfg.tuneMaxCorrection.lo) ∧
      (s.cfg.tuneMaxCorrection = .nonneg → v < 0 → m.toNat = 0)

/-- Rules R98, R99, R100 with rule R95 (the clamp and its bounds are the spec's decision D14, the matches the decision
D10, log entry 10; a value no frame can carry is log entry 17): TUNE of a gain stores exactly the clamped integer,
unscaled, in one register; nothing else changes, the accumulated integral included; the frames are those with match
0x0000020302, 0x0000030302, 0x0000040302; and the Tick that drains a TUNE of kI goes on with the new kI and the old
integral. -/
def Obligations.TuneGainStoresExactInteger : Prop :=
  (∀ F : Frame,
    (F &&& 0x0000FFFFFF#40 = 0x0000020302#40 → decodeFrame F = .ok (.tuneKp (tuneValue F))) ∧
    (F &&& 0x0000FFFFFF#40 = 0x0000030302#40 → decodeFrame F = .ok (.tuneKd (tuneValue F))) ∧
    (F &&& 0x0000FFFFFF#40 = 0x0000040302#40 → decodeFrame F = .ok (.tuneKi (tuneValue F)))) ∧
  (∀ (v : Int) (s : State), s.cfg.wf →
    exec (.tuneKp v) s = .next { s with p := { s.p with kP := (clampi v s.cfg.tuneKP.lo s.cfg.tuneKP.hi : Int) } } ∧
    exec (.tuneKd v) s = .next { s with p := { s.p with kD := (clampi v s.cfg.tuneKD.lo s.cfg.tuneKD.hi : Int) } } ∧
    exec (.tuneKi v) s = .next { s with p := { s.p with kI := (clampi v s.cfg.tuneKI.lo s.cfg.tuneKI.hi : Int) } }) ∧
  (∀ (sb : BitVec 8) (now : Millis) (v : Int) (s : State), s.cfg.wf → s.mbox.full = true →
    decodeFrame s.mbox.data = .ok (.tuneKi v) →
    ∃ d : Frame, exec (.tick sb now) s = phaseArm sb now
      { s with mbox := ⟨false, d⟩
               p := { s.p with kI := (clampi v s.cfg.tuneKI.lo s.cfg.tuneKI.hi : Int) } })

/-- Rule R95 (the bounds are the spec's decision D14): with the default bounds the clamp changes a transported value
only for index 1 and a negative value. -/
def Obligations.DefaultBoundsChangeOnlyNegativeMaxCorrection : Prop :=
  ∀ (c : Config) (i : Param) (v : Int), tuneValueOk v →
    c.tuneBaseSpeed = .int16 → c.tuneMaxCorrection = .nonneg → c.tuneKP = .int16 → c.tuneKD = .int16 →
    c.tuneKI = .int16 →
    (tuneOperand c i v ≠ v ↔ i = .maxCorrection ∧ v < 0)

/-- Rules R50, R101 (for opcode 1 and for the length, the spec's decisions D11 and D9; the sub-command bytes 1, 2, 3
its decision D10, log entry 10): the frames that decode to INVALID are exactly the rule's set; such a frame changes
nothing and emits nothing, and the Tick that drained it goes on with its phase arm; the reserved rows are such frames.
That the drained slot keeps its data is log entry 13. -/
def Obligations.InvalidFramesAreDropped : Prop :=
  (∀ F : Frame, isInvalidDecode (decodeFrame F) = true ↔ invalidFrame F) ∧
  (∀ (F : Frame) (s : State), invalidFrame F → execFrame F s = .next s) ∧
  (∀ (sb : BitVec 8) (now : Millis) (s : State), s.mbox.full = true → invalidFrame s.mbox.data →
    exec (.tick sb now) s = phaseArm sb now { s with mbox := ⟨false, s.mbox.data⟩ }) ∧
  (∀ (x : BitVec 32) (s : State), exec (.rsvd0 x) s = .next s ∧ exec (.cm0Local x) s = .next s)

/-- Rule R103: a second STOP_CAR in phase Stopped, a START_CAR in phase Running and a TUNE repeated with the same
operands change nothing, and the Tick that drains one behaves as a Tick with an empty mailbox: for a TUNE, in every
state whose parameters and flags are as the first one left them, whatever else has happened since. That the drained
slot keeps its data is log entry 13. -/
def Obligations.RepeatedCommandsAreIdempotent : Prop :=
  (∀ (x : BitVec 24) (sb : BitVec 8) (now : Millis) (s : State), s.phase = .stopped → s.mbox.full = true →
    decodeFrame s.mbox.data = .ok (.stopCar x) →
    exec (.tick sb now) s = exec (.tick sb now) { s with mbox := ⟨false, s.mbox.data⟩ }) ∧
  (∀ (x : BitVec 24) (sb : BitVec 8) (now : Millis) (s : State), s.phase = .running → s.mbox.full = true →
    decodeFrame s.mbox.data = .ok (.startCar x) →
    exec (.tick sb now) s = exec (.tick sb now) { s with mbox := ⟨false, s.mbox.data⟩ }) ∧
  (∀ (i : Instr) (s t : State), i.port = .frame → (∀ p, i ≠ .echo p) → exec i s = .next t → exec i t = .next t) ∧
  (∀ (i : Instr) (sb : BitVec 8) (now : Millis) (s0 t s : State), i.port = .frame → (∀ p, i ≠ .echo p) →
    exec i s0 = .next t → s.p = t.p → s.ctrl = t.ctrl → s.cfg = t.cfg → s.mbox.full = true →
    decodeFrame s.mbox.data = .ok i →
    exec (.tick sb now) s = exec (.tick sb now) { s with mbox := ⟨false, s.mbox.data⟩ })

/-! ## The Position Estimator (`spec/41_position_estimator.md`) -/

/-- Rule R56: with a sensor active, EST is the arithmetic mean of the set bits' weights, rounded once. -/
def Obligations.EstimateIsTheRoundedMean : Prop :=
  ∀ (f : NumFormat) (m : Mask) (le : ℚ), m ≠ 0#7 →
    est f m le =
      rnd f ((((if m.getLsbD 0 then -3000 else 0) + (if m.getLsbD 1 then -2000 else 0) +
          (if m.getLsbD 2 then -1000 else 0) + (if m.getLsbD 4 then 1000 else 0) +
          (if m.getLsbD 5 then 2000 else 0) + (if m.getLsbD 6 then 3000 else 0) : Int) : ℚ) /
        (((if m.getLsbD 0 then 1 else 0) + (if m.getLsbD 1 then 1 else 0) + (if m.getLsbD 2 then 1 else 0) +
          (if m.getLsbD 3 then 1 else 0) + (if m.getLsbD 4 then 1 else 0) + (if m.getLsbD 5 then 1 else 0) +
          (if m.getLsbD 6 then 1 else 0) : Nat) : ℚ))

/-- Rule R57: with no sensor active EST is -3000 if the last error is negative, else +3000. -/
def Obligations.LostLineFollowsTheErrorSign : Prop :=
  ∀ (f : NumFormat) (le : ℚ), (le < 0 → est f 0#7 le = -3000) ∧ (0 ≤ le → est f 0#7 le = 3000)

/-- Rule R59: EST lies in [-3000, +3000] for every mask and every last error, whatever the rounding. -/
def Obligations.PositionStaysInRange : Prop :=
  ∀ (f : NumFormat) (m : Mask) (le : ℚ), -3000 ≤ est f m le ∧ est f m le ≤ 3000

/-- The table V-EST is antisymmetric under reversing the seven bits, whatever the rounding. -/
def Obligations.EstimateIsAntisymmetric : Prop :=
  ∀ (f : NumFormat) (m : Mask) (le : ℚ), m ≠ 0#7 → est f m.reverse le = -est f m le

/-- Rules R58, R88 (the spec's decision D18): sensor bit 7 reaches neither the estimator nor the LED mirror: a TICK
cannot tell it. -/
def Obligations.SensorBitSevenIsIgnored : Prop :=
  ∀ (sb : BitVec 8) (now : Millis) (s : State), exec (.tick sb now) s = exec (.tick (sb ^^^ 0x80#8) now) s

/-! ## The PID Controller (`spec/42_pid_controller.md`) -/

/-- Rule R72 (the order of the operations, the constant `rnd(0.001)` and the modular difference are the spec's
decisions D4, D27, D32): `PID(err, now)` as the rule's pseudocode writes it. -/
def Obligations.PidComputesItsSevenSteps : Prop :=
  ∀ (f : NumFormat) (p : Params) (cs : ControllerState) (err : ℚ) (now : Millis),
    let d : Int := ((now.toNat : Int) - (cs.lastTimestampMs.toNat : Int)) % 2 ^ 32
    let q : ℚ := rnd f (rnd f d / 1000)
    let dt : ℚ := if q < rnd f (1 / 1000) then rnd f (1 / 1000) else q
    let pt : ℚ := rnd f (p.kP * err)
    let integ : ℚ := clamp (rnd f (cs.integral + rnd f (err * dt))) (-100) 100
    let it : ℚ := rnd f (p.kI * integ)
    let dd : ℚ := rnd f (rnd f (p.kD * rnd f (err - cs.lastError)) / dt)
    let sum : ℚ := rnd f (rnd f (pt + it) + dd)
    let c : ℚ := clamp sum (-(rnd f p.maxCorrection.toNat)) (rnd f p.maxCorrection.toNat)
    pidCorrection f p cs err now = f2iTrunc c ∧ pidState f cs err now = ⟨err, integ, now⟩

/-- Rule R110: the computed time step is below 0.001 exactly when `now` is the stored timestamp; then 0.001 is used
for the integral increment and for the derivative quotient, and the invocation completes, writing `CS` as always; a
counter that steps back one millisecond is not caught. -/
def Obligations.FloorFiresExactlyOnStalledClock : Prop :=
  ∀ (f : NumFormat) (p : Params) (cs : ControllerState) (err : ℚ) (now : Millis),
    (rawDeltaTime f (elapsedMs cs.lastTimestampMs now) < rnd f (1 / 1000) ↔ now = cs.lastTimestampMs) ∧
    (now = cs.lastTimestampMs →
      pidDt f cs now = rnd f (1 / 1000) ∧
      pidState f cs err now = ⟨err, nextIntegral f cs.integral err (rnd f (1 / 1000)), now⟩ ∧
      pidSum f p cs err now =
        termSum f (pTerm f p.kP err) (iTerm f p.kI (nextIntegral f cs.integral err (rnd f (1 / 1000))))
          (dTerm f p.kD err cs.lastError (rnd f (1 / 1000)))) ∧
    (now = cs.lastTimestampMs - 1#32 →
      elapsedMs cs.lastTimestampMs now = 2 ^ 32 - 1 ∧ rnd f (1 / 1000) < pidDt f cs now)

/-- Rules R63(f), R73: the time step lies between `rnd(0.001)` and 4294967.5 seconds. -/
def Obligations.TimeStepIsBounded : Prop :=
  ∀ (f : NumFormat) (cs : ControllerState) (now : Millis),
    rnd f (1 / 1000) ≤ pidDt f cs now ∧ pidDt f cs now ≤ 8589935 / 2

/-- Rule R132 (the spec's decision D32): a counter wrap is invisible, and an interval of 2^32 ms or more aliases. -/
def Obligations.CounterWrapIsInvisible : Prop :=
  ∀ (last : Millis) (n : Nat), elapsedMs last (last + BitVec.ofNat 32 n) = n % 2 ^ 32

/-- Rule R131 (the modular difference is the spec's decision D32): a clock that steps back by k ms, for any k from 1
to 2^32 - 1, reads as 2^32 - k ms forward and is never floored: the time step is the quotient itself; for one
millisecond back it is above 4.29e6 seconds. -/
def Obligations.BackwardClockIsNotFloored : Prop :=
  (∀ (f : NumFormat) (last : Millis) (k : Nat), 0 < k → k < 2 ^ 32 →
    elapsedMs last (last - BitVec.ofNat 32 k) = 2 ^ 32 - k ∧
    ¬ rawDeltaTime f (2 ^ 32 - k) < rnd f (1 / 1000) ∧
    deltaTime f (elapsedMs last (last - BitVec.ofNat 32 k)) = rnd f (rnd f ((2 : ℚ) ^ 32 - k) / 1000)) ∧
  (∀ (f : NumFormat) (last : Millis),
    elapsedMs last (last - 1#32) = 2 ^ 32 - 1 ∧ 4290000 < deltaTime f (elapsedMs last (last - 1#32)))

/-- Rule R66: every step leaves the integral in [-100, +100]. -/
def Obligations.IntegralStaysInRange : Prop :=
  (-100 ≤ State.reset.cs.integral ∧ State.reset.cs.integral ≤ 100) ∧
  (∀ (f : NumFormat) (cs : ControllerState) (err : ℚ) (now : Millis),
    -100 ≤ (pidState f cs err now).integral ∧ (pidState f cs err now).integral ≤ 100) ∧
  (∀ s t : State, step s = .next t → -100 ≤ s.cs.integral → s.cs.integral ≤ 100 →
    -100 ≤ t.cs.integral ∧ t.cs.integral ≤ 100)

/-- Rule R65(c) and L1 item 3: in the exact model, a constant error over N invocations of equal time step ramps the
integral to `clamp(N·E·Δt, -100, 100)`. -/
def Obligations.ExactIntegralRampIsClampedProduct : Prop :=
  ∀ (e dt : ℚ) (n : Nat),
    (fun g => nextIntegral .exact g e dt)^[n] 0 = clamp ((n : ℚ) * e * dt) (-100) 100

/-- Rules R12(d), R70: the correction's magnitude never exceeds maxCorrection, for any error, gains and state. -/
def Obligations.CorrectionIsBoundedByMaxCorrection : Prop :=
  ∀ (f : NumFormat) (p : Params) (cs : ControllerState) (err : ℚ) (now : Millis),
    -(p.maxCorrection.toNat : Int) ≤ pidCorrection f p cs err now ∧
    pidCorrection f p cs err now ≤ p.maxCorrection.toNat

/-- Rule R73: with legal gains and errors in range every value the PID forms stays below the rule's bounds, so nothing
overflows binary32. -/
def Obligations.PidIntermediatesStayFinite : Prop :=
  ∀ (f : NumFormat) (p : Params) (cs : ControllerState) (err : ℚ) (now : Millis),
    p.legal f → -100 ≤ cs.integral → cs.integral ≤ 100 → -3000 ≤ cs.lastError → cs.lastError ≤ 3000 →
    -3000 ≤ err → err ≤ 3000 →
    |fmul f err (pidDt f cs now)| ≤ 13000000000 ∧
    |fadd f cs.integral (fmul f err (pidDt f cs now))| ≤ 13000000100 ∧
    |pTerm f p.kP err| ≤ 99000000 ∧
    |iTerm f p.kI (pidIntegral f cs err now)| ≤ 3300000 ∧
    |fmul f p.kD (fsub f err cs.lastError)| ≤ 200000000 ∧
    |dTerm f p.kD err cs.lastError (pidDt f cs now)| ≤ 200000000000 ∧
    |pidSum f p cs err now| ≤ 210000000000

/-- Rule R72's worked example, in both number formats; and rule R133 with V-PID-7: on one tick the exact correction is
50 and the binary32 correction 49. -/
def Obligations.PidWorkedExamplesHold : Prop :=
  pidCorrection .exact ⟨1000#16, 30000#16, 0, 0, 1⟩ ⟨0, 0, 1000#32⟩ (errorOf .exact (est .exact 0x0B#7 0)) 1030#32 = 50 ∧
  pidCorrection .binary32 ⟨1000#16, 30000#16, 0, 0, 1⟩ ⟨0, 0, 1000#32⟩
    (errorOf .binary32 (est .binary32 0x0B#7 0)) 1030#32 = 49 ∧
  ∀ f : NumFormat,
    pidCorrection f ⟨1000#16, 2000#16, 2, 1, 3⟩ ⟨-250, -100, 1625#32⟩ 250 1750#32 = 2000 ∧
    pidState f ⟨-250, -100, 1625#32⟩ 250 1750#32 = ⟨250, -275 / 4, 1750#32⟩

/-! ## The Drive Mixer (`spec/43_drive_mixer.md`) -/

/-- Rules R12(c), R76, R77 (no wrap before the clamp: the spec's decision D34): MIX forms mathematical-integer sums
and clamps each side on its own, so each lies in [-4000, +4000]. -/
def Obligations.MixerClampsEachSide : Prop :=
  ∀ base corr : Int, mixLeft base corr = max (-4000) (min 4000 (base + corr)) ∧
    mixRight base corr = max (-4000) (min 4000 (base - corr)) ∧
    speedOk (mixLeft base corr) ∧ speedOk (mixRight base corr)

/-- Rule R80, in the direction its counter-examples leave: where neither clamp fires the mixer keeps the mean speed.
-/
def Obligations.MixerKeepsMeanSpeedUnclamped : Prop :=
  ∀ base corr : Int, |base + corr| ≤ 4000 → |base - corr| ≤ 4000 → mixLeft base corr + mixRight base corr = 2 * base

/-- Rule R135: when the base speed is beyond the motor range by maxCorrection, no correction steers. -/
def Obligations.SaturatedBaseCannotSteer : Prop :=
  ∀ base corr m : Int, 4000 + m ≤ |base| → |corr| ≤ m → mixLeft base corr = mixRight base corr

/-- Rule R78: negating after the clamp is clamping the negated sum, and a `MotorCmd` is in range for either polarity.
-/
def Obligations.PolarityCommutesWithTheClamp : Prop :=
  ∀ (pol : Polarity) (x : Int), applyPolarity pol (clampSpeed x) = clampSpeed (applyPolarity pol x) ∧
    speedOk (applyPolarity pol (clampSpeed x))

/-! ## The Tick (`spec/44_control_loop_tick.md`) -/

/-- Rule R81: TICK, whole: it drains, and then the phase the drain left decides between nothing, the pipeline and the
zero command; it always completes. -/
def Obligations.TickDrainsThenRunsItsPhase : Prop :=
  ∀ (sb : BitVec 8) (now : Millis) (s : State), ∃ t, drain s = .next t ∧
    (t.ctrl.carStarted = false → exec (.tick sb now) s = .next t) ∧
    (t.ctrl.carStarted = true → t.ctrl.motorsEnabled = false →
      exec (.tick sb now) s = .next { t with out := t.out ++ [.motorCmd 0 0 0 0] }) ∧
    (t.ctrl.carStarted = true → t.ctrl.motorsEnabled = true →
      let m : Mask := sb.setWidth 7
      let err : ℚ := fsub t.cfg.num 0 (est t.cfg.num m t.cs.lastError)
      let corr : Int := pidCorrection t.cfg.num t.p t.cs err now
      let l : Int := applyPolarity t.cfg.pol (mixLeft t.p.baseSpeed.toInt corr)
      let r : Int := applyPolarity t.cfg.pol (mixRight t.p.baseSpeed.toInt corr)
      exec (.tick sb now) s =
        .next { t with cs := pidState t.cfg.num t.cs err now, out := t.out ++ [.motorCmd l l r r, .ledMirror m] })

/-- Rule R37: Drain, the first action of every Tick in every phase, executes the pending frame with the flag already
cleared, drops an INVALID one, and does nothing to an empty mailbox. That the drained slot keeps its data is log entry
13. -/
def Obligations.DrainExecutesThePendingFrameOnce : Prop :=
  ∀ s : State,
    (s.mbox.full = false → drain s = .next s) ∧
    (∀ i, s.mbox.full = true → decodeFrame s.mbox.data = .ok i →
      drain s = exec i { s with mbox := ⟨false, s.mbox.data⟩ }) ∧
    (∀ e, s.mbox.full = true → decodeFrame s.mbox.data = .error e →
      drain s = .next { s with mbox := ⟨false, s.mbox.data⟩ }) ∧
    (∀ t, drain s = .next t → t.mbox = ⟨false, s.mbox.data⟩) ∧
    (∀ sb now t, drain s = .next t → exec (.tick sb now) s = phaseArm sb now t)

/-- A step runs the decoded instruction: a scheduled T-WORD is decoded and run, and a pending frame that decodes to
`i` is run as exec says, after the flag is cleared and before the phase arm. That the drained slot keeps its data is
log entry 13. -/
def Obligations.StepRunsTheDecodedInstruction : Prop :=
  ∀ (s : State) (T : Frame) (rest : List Input), s.inputs = .tick T :: rest →
    step s = exec (decodeTick T) { s with inputs := rest } ∧
    (∀ i, s.mbox.full = true → decodeFrame s.mbox.data = .ok i →
      ∃ t, exec i { s with inputs := rest, mbox := ⟨false, s.mbox.data⟩ } = .next t ∧
        step s = phaseArm (T.extractLsb' 0 8) (T.extractLsb' 8 32) t)

/-- Where the table's words are placed, the very next step runs them. This is the model's own convention: log entry 12
for the placing, log entry 11 for the row a word is read as, log entry 13 for the data the drained slot keeps. -/
def Obligations.PlacedWordIsRunByTheNextStep : Prop :=
  ∀ (s : State) (w : Nat) (i : Instr), decodeTableWord 40 w = some i →
    (i.port = .frame → ∃ t, exec i { s with mbox := ⟨false, tableWord 40 w⟩ } = .next t ∧
      step (s.withFetchWord 40 w) = phaseArm 0#8 0#32 t) ∧
    (i.port = .tick → step (s.withFetchWord 40 w) = exec i s)

/-- Rule R86: the complete transition table of the phase. -/
def Obligations.PhaseFollowsItsTransitionTable : Prop :=
  (∀ (s : State) (T : Frame) (rest : List Input), s.inputs = .tick T :: rest → ∃ t, step s = .next t ∧
    (s.mbox.full = false → t.phase = s.phase) ∧
    (∀ i, s.mbox.full = true → decodeFrame s.mbox.data = .ok i → t.phase = phaseAfter s.phase i) ∧
    (∀ e, s.mbox.full = true → decodeFrame s.mbox.data = .error e → t.phase = s.phase)) ∧
  (∀ (s : State) (F : Frame) (rest : List Input), s.inputs = .deliver F :: rest →
    ∃ t, step s = .next t ∧ t.phase = s.phase) ∧
  (∀ (s : State) (rest : List Input), s.inputs = .reset :: rest → ∃ t, step s = .next t ∧ t.phase = .idle)

/-- Rule R19: carStarted is a one-shot latch: no step but Reset clears it. -/
def Obligations.CarStartedIsNeverCleared : Prop :=
  ∀ s t : State, step s = .next t → s.ctrl.carStarted = true → t.ctrl.carStarted = false →
    ∃ rest, s.inputs = .reset :: rest

/-- Rules R24, R90 (a Stopped tick leaves it whole: the spec's decision D33): the controller state changes only in a
Tick that ends in phase Running, or by Reset; no frame touches it. -/
def Obligations.ControllerStateIsFrozenOutsideRunning : Prop :=
  (∀ (i : Instr) (s t : State), exec i s = .next t → t.cs ≠ s.cs → i.port = .tick ∧ t.phase = .running) ∧
  (∀ s t : State, step s = .next t → t.cs ≠ s.cs →
    (∃ T rest, s.inputs = .tick T :: rest ∧ t.phase = .running) ∨ (∃ rest, s.inputs = .reset :: rest))

/-- Rule R104: `P` and `CTRL` are written only by the frame a Tick drains, and by Reset; executing a frame neither
reads nor writes `CS`; the datapath writes neither `P` nor `CTRL`. -/
def Obligations.ParametersHaveOneWriter : Prop :=
  (∀ (i : Instr) (s t : State) (c : ControllerState), i.port = .frame → exec i s = .next t →
    t.cs = s.cs ∧ exec i { s with cs := c } = .next { t with cs := c }) ∧
  (∀ (sb : BitVec 8) (now : Millis) (s t u : State), drain s = .next t → exec (.tick sb now) s = .next u →
    u.p = t.p ∧ u.ctrl = t.ctrl) ∧
  (∀ s t : State, step s = .next t → t.p ≠ s.p ∨ t.ctrl ≠ s.ctrl →
    (∃ T rest, s.inputs = .tick T :: rest ∧ s.mbox.full = true) ∨ (∃ rest, s.inputs = .reset :: rest))

/-- Rules R84, R85, R88, R94 (no LED event in phase Stopped: the spec's decision D20): the events of one Tick: at most
one Echo, first, then what the phase arm emits. -/
def Obligations.TickEventsComeInOrder : Prop :=
  ∀ (sb : BitVec 8) (now : Millis) (s : State), ∃ (t : State) (es fs : List Event),
    exec (.tick sb now) s = .next t ∧ t.out = s.out ++ es ++ fs ∧
    (s.mbox.full = true → frameByte s.mbox.data 0 = 0x03#8 → es = [.echo s.mbox.data]) ∧
    (s.mbox.full = false ∨ frameByte s.mbox.data 0 ≠ 0x03#8 → es = []) ∧
    (t.phase = .idle → fs = []) ∧
    (t.phase = .stopped → fs = [.motorCmd 0 0 0 0]) ∧
    (t.phase = .running → ∃ l r, speedOk l ∧ speedOk r ∧ fs = [.motorCmd l l r r, .ledMirror (sb.setWidth 7)])

/-- Rule R128: while the mask stays zero in phase Running the stored error alternates between +3000 and -3000. -/
def Obligations.LostLineAlternates : Prop :=
  ∀ (sb : BitVec 8) (now : Millis) (s : State), s.phase = .running → s.mbox.full = false → sb.setWidth 7 = 0#7 →
    ∃ t, exec (.tick sb now) s = .next t ∧
      (s.cs.lastError < 0 → t.cs.lastError = 3000) ∧ (0 ≤ s.cs.lastError → t.cs.lastError = -3000)

/-- Rule R127: any number of Ticks in phase Stopped with no frame leaves everything but the zero commands alone, so
the next Running tick measures from the last one before the stop. -/
def Obligations.StoppedTicksFreezeTheController : Prop :=
  ∀ (ts : List Frame) (s : State) (rest : List Input), s.phase = .stopped → s.mbox.full = false →
    s.inputs = ts.map Input.tick ++ rest →
    core.run ts.length s =
      .next { s with inputs := rest, out := s.out ++ List.replicate ts.length (.motorCmd 0 0 0 0) }

/-- Rule R83: any number of Ticks in phase Idle with no frame changes nothing and emits nothing. -/
def Obligations.IdleTicksDoNothing : Prop :=
  ∀ (ts : List Frame) (s : State) (rest : List Input), s.phase = .idle → s.mbox.full = false →
    s.inputs = ts.map Input.tick ++ rest → core.run ts.length s = .next { s with inputs := rest }

/-! ## The mailbox (`spec/20_memory.md`) -/

/-- Rule R36: Deliver fills an empty slot, and is dropped while a frame is pending (the spec's decision D16). -/
def Obligations.DeliverFillsOnlyAnEmptySlot : Prop :=
  ∀ (s : State) (F : Frame) (rest : List Input), s.inputs = .deliver F :: rest →
    (s.mbox.full = false → step s = .next { s with inputs := rest, mbox := ⟨true, F⟩ }) ∧
    (s.mbox.full = true → step s = .next { s with inputs := rest })

/-- Rules R34(b), R39: whatever frames are delivered in between (they are dropped: the spec's decision D16), the next
Tick executes bit for bit the frame of the accepted Deliver, and empties the slot. That the drained slot keeps its
data is log entry 13; the schedule is log entry 1. -/
def Obligations.NextTickExecutesTheAcceptedFrame : Prop :=
  ∀ (s : State) (F : Frame) (gs : List Frame) (T : Frame) (rest : List Input), s.mbox.full = false →
    s.inputs = .deliver F :: (gs.map Input.deliver ++ .tick T :: rest) →
    ∃ t u, execFrame F { s with inputs := rest, mbox := ⟨false, F⟩ } = .next t ∧
      phaseArm (T.extractLsb' 0 8) (T.extractLsb' 8 32) t = .next u ∧
      core.run (gs.length + 2) s = .next u ∧ u.mbox.full = false

/-- Rules R25, U10: while the mailbox is empty its data cannot be seen: two states that differ in it alone take the
same step, and still differ in it at most. -/
def Obligations.EmptyMailboxDataIsInvisible : Prop :=
  ∀ (s : State) (d : Frame), s.mbox.full = false →
    ∃ t u, step s = .next t ∧ step { s with mbox := ⟨false, d⟩ } = .next u ∧
      (u = t ∨ (t.mbox.full = false ∧ u = { t with mbox := ⟨false, d⟩ }))

/-! ## Reset (`spec/70_reset_and_hazards.md`) -/

/-- Rule R122 (the values of `CTRL`, `CS` and `MBOX` are the spec's decisions D6, D8): Reset writes every element of
the state and emits nothing; the phase is Idle; what the slot's data become is not said. What the environment still
has scheduled and the events already emitted stay (log entries 1, 2). -/
def Obligations.ResetRestoresEveryElement : Prop :=
  ∀ (s : State) (rest : List Input), s.inputs = .reset :: rest → ∃ t, step s = .next t ∧
    t.p = s.cfg.resetP ∧ t.ctrl = ⟨false, false⟩ ∧ t.cs = ⟨0, 0, 0#32⟩ ∧ t.mbox.full = false ∧
    t.out = s.out ∧ t.phase = .idle ∧ t.cfg = s.cfg ∧ t.inputs = rest

/-- Rules R27, R122, R123 (the values are the spec's decisions D6, D7, D8): the state right after power-up, for every
configuration; nothing has been emitted (log entry 2). -/
def Obligations.PowerUpStateIsIdleAndEmpty : Prop :=
  (∀ c : Config, (State.resetWith c).p = c.resetP ∧ (State.resetWith c).ctrl = ⟨false, false⟩ ∧
    (State.resetWith c).cs = ⟨0, 0, 0#32⟩ ∧ (State.resetWith c).mbox.full = false ∧
    (State.resetWith c).out = [] ∧ (State.resetWith c).phase = .idle) ∧
  (∃ c : Config, State.reset = State.resetWith c ∧ c.wf)

/-! ## The whole machine -/

/-- Rule R109: nothing traps: every instruction and every step answers a next state, from every state. -/
def Obligations.NothingTrapsOrHalts : Prop :=
  (∀ (i : Instr) (s : State), ∃ t, exec i s = .next t) ∧ (∀ s : State, ∃ t, step s = .next t)

/-- Rule R12 with R15-R17, R21, R22, R77, R79: every step keeps the invariant of the block. -/
def Obligations.EveryStepKeepsTheInvariant : Prop :=
  ∀ s t : State, Inv s → step s = .next t → Inv t

/-- Rules R12, R122, R123 (the reset values are the spec's decisions D6, D7, D8): the invariant holds right after
power-up, for every legal configuration and for the model's own. -/
def Obligations.PowerUpStateMeetsTheInvariant : Prop :=
  (∀ c : Config, c.wf → Inv (State.resetWith c)) ∧ Inv State.reset

/-- Rule R18: the parameters are observable only through `MotorCmd`: two states that differ in `P` and in the payloads
of past motor commands take steps whose other events, controller state, flags and mailbox are the same. -/
def Obligations.ParametersShowOnlyInMotorCommands : Prop :=
  ∀ (s : State) (q : Params) (o : List Event), o.map Event.hideMotor = s.out.map Event.hideMotor →
    ∃ (t u : State) (r : Params) (w : List Event),
      step s = .next t ∧ step { s with p := q, out := o } = .next u ∧ u = { t with p := r, out := w } ∧
      w.map Event.hideMotor = t.out.map Event.hideMotor

/-- Rules R78, R134 (the spec's decision D15): the other polarity negates every motor payload and changes nothing
else. -/
def Obligations.PolarityOnlyNegatesMotorCommands : Prop :=
  ∀ s t : State, step s = .next t →
    step { s with cfg := { s.cfg with pol := otherPolarity s.cfg.pol }, out := s.out.map Event.negateMotor } =
      .next { t with cfg := { t.cfg with pol := otherPolarity t.cfg.pol }, out := t.out.map Event.negateMotor }
end

