-- ==== Sys2Proof/Laws/Decode.lean ====
section
/-! SUPPORT. What the decoder answers, one inversion lemma a level (`spec/30_encoding.md` rules R43, R44, R49). -/

namespace Sys2Proof

/-- The third level (rule R44). -/
theorem decodeTune_ok_cases {idx : Byte} {v : Int} {i : Instr} (h : decodeTune idx v = .ok i) :
    (idx = 0x00#8 ∧ i = .tuneBase v) ∨ (idx = 0x01#8 ∧ i = .tuneMaxc v) ∨ (idx = 0x02#8 ∧ i = .tuneKp v) ∨
    (idx = 0x03#8 ∧ i = .tuneKd v) ∨ (idx = 0x04#8 ∧ i = .tuneKi v) := by
  unfold decodeTune at h
  split at h
  · next h0 => cases h; exact .inl ⟨h0, rfl⟩
  split at h
  · next h1 => cases h; exact .inr (.inl ⟨h1, rfl⟩)
  split at h
  · next h2 => cases h; exact .inr (.inr (.inl ⟨h2, rfl⟩))
  split at h
  · next h3 => cases h; exact .inr (.inr (.inr (.inl ⟨h3, rfl⟩)))
  split at h
  · next h4 => cases h; exact .inr (.inr (.inr (.inr ⟨h4, rfl⟩)))
  · cases h

/-- The second level (rule R44). -/
theorem decodeRouted_ok_cases {F : Frame} {i : Instr} (h : decodeRouted F = .ok i) :
    (frameByte F 1 = Config.subStart ∧ i = .startCar (frameTail3 F)) ∨
    (frameByte F 1 = Config.subStop ∧ i = .stopCar (frameTail3 F)) ∨
    (frameByte F 1 = Config.subTune ∧ decodeTune (frameByte F 2) (tuneValue F) = .ok i) := by
  unfold decodeRouted at h
  split at h
  · next h1 => cases h; exact .inl ⟨h1, rfl⟩
  split at h
  · next h2 => cases h; exact .inr (.inl ⟨h2, rfl⟩)
  split at h
  · next h3 => exact .inr (.inr ⟨h3, h⟩)
  · cases h

/-- The first level (rules R43, R49). -/
theorem decodeFrame_ok_cases {F : Frame} {i : Instr} (h : decodeFrame F = .ok i) :
    (frameByte F 0 = 0x03#8 ∧ i = .echo (frameTail4 F)) ∨
    (frameByte F 0 = 0x00#8 ∧ i = .rsvd0 (frameTail4 F)) ∨
    (frameByte F 0 = 0x01#8 ∧ i = .cm0Local (frameTail4 F)) ∨
    (frameByte F 0 = 0x02#8 ∧ decodeRouted F = .ok i) := by
  unfold decodeFrame at h
  split at h
  · next h3 => cases h; exact .inl ⟨h3, rfl⟩
  split at h
  · next h0 => cases h; exact .inr (.inl ⟨h0, rfl⟩)
  split at h
  · next h1 => cases h; exact .inr (.inr (.inl ⟨h1, rfl⟩))
  split at h
  · next h2 => exact .inr (.inr (.inr ⟨h2, h⟩))
  · cases h

/-- The frame decoder never answers TICK (rule R41). -/
theorem decodeFrame_ne_tick (F : Frame) (sb : BitVec 8) (now : Millis) : decodeFrame F ≠ .ok (.tick sb now) := by
  intro h
  obtain ⟨-, h⟩ | ⟨-, h⟩ | ⟨-, h⟩ | ⟨-, h⟩ := decodeFrame_ok_cases h
  · cases h
  · cases h
  · cases h
  · obtain ⟨-, h⟩ | ⟨-, h⟩ | ⟨-, h⟩ := decodeRouted_ok_cases h
    · cases h
    · cases h
    · obtain ⟨-, h⟩ | ⟨-, h⟩ | ⟨-, h⟩ | ⟨-, h⟩ | ⟨-, h⟩ := decodeTune_ok_cases h <;> cases h

end Sys2Proof
end

