-- ==== Sys2Proof/Laws/Num.lean ====
section
/-! SUPPORT. What the numeric primitives do: the binade of a value, round-half-even, and of `rnd` that it fixes the
values of its format, is monotone, odd and idempotent; the clamps; truncation toward zero. -/

namespace Sys2Proof.Machine

/-! ## Powers of two and the binade -/

theorem pow2_eq_zpow (e : Int) : pow2 e = (2 : ℚ) ^ e := by
  unfold pow2
  split
  · next h => obtain ⟨n, rfl⟩ := Int.eq_ofNat_of_zero_le h; simp
  · next h =>
    obtain ⟨n, hn⟩ := Int.eq_ofNat_of_zero_le (show 0 ≤ -e by omega)
    obtain rfl : e = -(n : Int) := by omega
    simp

theorem pow2_pos (e : Int) : 0 < pow2 e := by rw [pow2_eq_zpow]; positivity

theorem pow2_ne_zero (e : Int) : pow2 e ≠ 0 := (pow2_pos e).ne'

theorem pow2_add (a b : Int) : pow2 (a + b) = pow2 a * pow2 b := by
  simp only [pow2_eq_zpow]; exact zpow_add₀ (by norm_num) a b

theorem pow2_le_pow2 {a b : Int} (h : a ≤ b) : pow2 a ≤ pow2 b := by
  simp only [pow2_eq_zpow]; exact zpow_le_zpow_right₀ (by norm_num) h

theorem pow2_lt_pow2 {a b : Int} (h : a < b) : pow2 a < pow2 b := by
  simp only [pow2_eq_zpow]; exact zpow_lt_zpow_right₀ (by norm_num) h

theorem pow2_natCast (n : Nat) : pow2 (n : Int) = (2 : ℚ) ^ n := by
  rw [pow2_eq_zpow, zpow_natCast]

theorem abs_eq_natAbs_div_den (q : ℚ) : |q| = (q.num.natAbs : ℚ) / (q.den : ℚ) := by
  conv_lhs => rw [← Rat.num_div_den q]
  rw [abs_div, Nat.abs_cast, Nat.cast_natAbs, Int.cast_abs]

theorem ilog2_spec {q : ℚ} (h : q ≠ 0) : pow2 (ilog2 q) ≤ |q| ∧ |q| < pow2 (ilog2 q + 1) := by
  have hn : q.num.natAbs ≠ 0 := by simpa using h
  have hd : q.den ≠ 0 := q.den_nz
  set n := q.num.natAbs with hn_def
  set d := q.den with hd_def
  have hq : |q| = (n : ℚ) / d := abs_eq_natAbs_div_den q
  have hdpos : (0 : ℚ) < d := by exact_mod_cast Nat.pos_of_ne_zero hd
  have n1 : ((2 : ℚ) ^ Nat.log2 n) ≤ n := by exact_mod_cast Nat.log2_self_le hn
  have n2 : (n : ℚ) < 2 ^ (Nat.log2 n + 1) := by exact_mod_cast Nat.lt_log2_self
  have d1 : ((2 : ℚ) ^ Nat.log2 d) ≤ d := by exact_mod_cast Nat.log2_self_le hd
  have d2 : (d : ℚ) < 2 ^ (Nat.log2 d + 1) := by exact_mod_cast Nat.lt_log2_self
  have hsplit : ∀ a b : Nat, pow2 ((a : Int) - (b : Int)) = (2 : ℚ) ^ a / 2 ^ b := by
    intro a b
    rw [pow2_eq_zpow, zpow_sub₀ (by norm_num : (2 : ℚ) ≠ 0), zpow_natCast, zpow_natCast]
  have hlow : pow2 ((Nat.log2 n : Int) - (Nat.log2 d : Int) - 1) ≤ |q| := by
    have : ((Nat.log2 n : Int) - (Nat.log2 d : Int) - 1) = (Nat.log2 n : Int) - ((Nat.log2 d + 1 : Nat) : Int) := by
      push_cast; ring
    rw [this, hsplit, hq]
    exact div_le_div₀ (by positivity) n1 hdpos d2.le
  have hhigh : |q| < pow2 ((Nat.log2 n : Int) - (Nat.log2 d : Int) + 1) := by
    have : ((Nat.log2 n : Int) - (Nat.log2 d : Int) + 1) = ((Nat.log2 n + 1 : Nat) : Int) - (Nat.log2 d : Int) := by
      push_cast; ring
    rw [this, hsplit, hq]
    exact div_lt_div₀ n2 d1 (by positivity) (by positivity)
  unfold ilog2
  simp only [← hn_def, ← hd_def]
  split
  · next hk => exact ⟨hk, hhigh⟩
  · next hk => exact ⟨hlow, by simpa using not_le.mp hk⟩

/-! ## Round half to even -/

theorem floor_eq (x : ℚ) : x.floor = ⌊x⌋ := rfl

theorem roundEven_of_lt {x : ℚ} (h : x - ⌊x⌋ < 1 / 2) : roundEven x = ⌊x⌋ := if_pos h

theorem roundEven_of_gt {x : ℚ} (h : 1 / 2 < x - ⌊x⌋) : roundEven x = ⌊x⌋ + 1 :=
  (if_neg (not_lt.mpr h.le)).trans (if_pos h)

theorem roundEven_of_tie {x : ℚ} (h : x - ⌊x⌋ = 1 / 2) :
    roundEven x = if ⌊x⌋ % 2 = 0 then ⌊x⌋ else ⌊x⌋ + 1 :=
  (if_neg (not_lt.mpr h.ge)).trans (if_neg (not_lt.mpr h.le))

theorem roundEven_cases (x : ℚ) :
    (roundEven x = ⌊x⌋ ∧ x - ⌊x⌋ ≤ 1 / 2) ∨ (roundEven x = ⌊x⌋ + 1 ∧ 1 / 2 ≤ x - ⌊x⌋) := by
  rcases lt_trichotomy (x - ⌊x⌋) (1 / 2) with h | h | h
  · exact .inl ⟨roundEven_of_lt h, h.le⟩
  · rw [roundEven_of_tie h]
    by_cases hp : ⌊x⌋ % 2 = 0
    · exact .inl ⟨if_pos hp, h.le⟩
    · exact .inr ⟨if_neg hp, h.ge⟩
  · exact .inr ⟨roundEven_of_gt h, h.le⟩

@[simp] theorem roundEven_intCast (n : Int) : roundEven (n : ℚ) = n := by
  simp [roundEven, floor_eq]

theorem abs_roundEven_sub_le (x : ℚ) : |(roundEven x : ℚ) - x| ≤ 1 / 2 := by
  have h0 := Int.floor_le x
  have h1 := Int.lt_floor_add_one x
  obtain ⟨h, hx⟩ | ⟨h, hx⟩ := roundEven_cases x <;> rw [h] <;> rw [abs_le] <;> push_cast <;>
    constructor <;> linarith

theorem roundEven_mono {x y : ℚ} (h : x ≤ y) : roundEven x ≤ roundEven y := by
  have hf : ⌊x⌋ ≤ ⌊y⌋ := Int.floor_le_floor h
  rcases hf.lt_or_eq with hlt | heq
  · obtain ⟨hx, -⟩ | ⟨hx, -⟩ := roundEven_cases x <;> obtain ⟨hy, -⟩ | ⟨hy, -⟩ := roundEven_cases y <;> omega
  · have hxy : x - ⌊x⌋ ≤ y - ⌊y⌋ := by rw [heq]; linarith
    rcases lt_trichotomy (x - ⌊x⌋) (1 / 2) with hx | hx | hx
    · rw [roundEven_of_lt hx]; obtain ⟨hy, -⟩ | ⟨hy, -⟩ := roundEven_cases y <;> omega
    · rcases (hx ▸ hxy).eq_or_lt with hy | hy
      · rw [roundEven_of_tie hx, roundEven_of_tie hy.symm, heq]
      · rw [roundEven_of_gt hy, roundEven_of_tie hx]; split_ifs <;> omega
    · rw [roundEven_of_gt hx, roundEven_of_gt (lt_of_lt_of_le hx hxy), heq]

theorem roundEven_le_of_le_intCast {x : ℚ} {n : Int} (h : x ≤ n) : roundEven x ≤ n := by
  simpa using roundEven_mono h

theorem le_roundEven_of_intCast_le {x : ℚ} {n : Int} (h : (n : ℚ) ≤ x) : n ≤ roundEven x := by
  simpa using roundEven_mono h

theorem roundEven_unique {x : ℚ} {n : Int} (h : |x - n| < 1 / 2) : roundEven x = n := by
  have h2 := abs_roundEven_sub_le x
  rw [abs_lt] at h
  rw [abs_le] at h2
  have h3 : ((roundEven x : ℚ)) < n + 1 := by linarith
  have h4 : (n : ℚ) - 1 < roundEven x := by linarith
  have h5 : roundEven x < n + 1 := by exact_mod_cast h3
  have h6 : n - 1 < roundEven x := by exact_mod_cast h4
  omega

theorem roundEven_neg (x : ℚ) : roundEven (-x) = -roundEven x := by
  by_cases hint : (⌊x⌋ : ℚ) = x
  · rw [← hint]
    have : (-((⌊x⌋ : Int) : ℚ)) = ((-⌊x⌋ : Int) : ℚ) := by push_cast; ring
    rw [this, roundEven_intCast, roundEven_intCast]
  · have h0 : (⌊x⌋ : ℚ) < x := lt_of_le_of_ne (Int.floor_le x) hint
    have h1 := Int.lt_floor_add_one x
    have hneg : ⌊-x⌋ = -⌊x⌋ - 1 := by
      rw [Int.floor_eq_iff]; push_cast; constructor <;> linarith
    have hfrac : -x - ⌊-x⌋ = 1 - (x - ⌊x⌋) := by rw [hneg]; push_cast; ring
    rcases lt_trichotomy (x - ⌊x⌋) (1 / 2) with hx | hx | hx
    · rw [roundEven_of_lt hx, roundEven_of_gt (by rw [hfrac]; linarith), hneg]; ring
    · rw [roundEven_of_tie hx, roundEven_of_tie (by rw [hfrac]; linarith), hneg]
      split_ifs <;> omega
    · rw [roundEven_of_gt hx, roundEven_of_lt (by rw [hfrac]; linarith), hneg]; ring

/-! ## rnd32 -/

theorem ulpExp_ge (q : ℚ) : -149 ≤ ulpExp q := le_max_left _ _

/-- A value scaled by its unit in the last place stays below 2 ^ 24. -/
theorem abs_div_ulp_lt (q : ℚ) : |q / pow2 (ulpExp q)| < 2 ^ 24 := by
  rw [abs_div, abs_of_pos (pow2_pos _), div_lt_iff₀ (pow2_pos _)]
  by_cases h : q = 0
  · subst h; have := pow2_pos (ulpExp 0); simpa using this
  · have h1 := (ilog2_spec h).2
    have h2 : ilog2 q + 1 ≤ 24 + ulpExp q := by unfold ulpExp; omega
    have h3 := pow2_le_pow2 h2
    rw [pow2_add 24, show pow2 24 = 2 ^ 24 from pow2_natCast 24] at h3
    linarith

/-- The significand a value rounds to has at most 24 bits. -/
theorem abs_roundEven_div_ulp_le (q : ℚ) : |roundEven (q / pow2 (ulpExp q))| ≤ 2 ^ 24 := by
  have h := abs_lt.mp (abs_div_ulp_lt q)
  rw [abs_le]
  constructor
  · apply le_roundEven_of_intCast_le; push_cast; linarith [h.1]
  · apply roundEven_le_of_le_intCast; push_cast; linarith [h.2]

/-- A value that is a multiple of a unit no larger than its own is fixed. -/
theorem rnd32_of_multiple {q : ℚ} {m e : Int} (hq : q = m * pow2 e) (he : ulpExp q ≤ e) : rnd32 q = q := by
  obtain ⟨n, hn⟩ := Int.eq_ofNat_of_zero_le (show 0 ≤ e - ulpExp q by omega)
  have he2 : pow2 e = pow2 (ulpExp q) * (2 ^ n : Nat) := by
    rw [show e = ulpExp q + (n : Int) by omega, pow2_add, pow2_natCast]
    push_cast
    rfl
  have hdiv : q / pow2 (ulpExp q) = ((m * (2 ^ n : Nat) : Int) : ℚ) := by
    rw [div_eq_iff (pow2_ne_zero _)]
    conv_lhs => rw [hq, he2]
    push_cast; ring
  unfold rnd32
  rw [hdiv, roundEven_intCast, ← hdiv, div_mul_cancel₀ _ (pow2_ne_zero _)]

/-- Every `m * 2 ^ e` with a 24-bit significand and `e ≥ -149` is a binary32 value. -/
theorem rnd32_of_significand {m e : Int} (hm : |m| < 2 ^ 24) (he : -149 ≤ e) :
    rnd32 (m * pow2 e) = m * pow2 e := by
  by_cases h0 : m = 0
  · subst h0; simp [rnd32, roundEven, floor_eq]
  · apply rnd32_of_multiple rfl
    have hq : (m : ℚ) * pow2 e ≠ 0 := mul_ne_zero (by exact_mod_cast h0) (pow2_ne_zero _)
    have h1 := (ilog2_spec hq).1
    rw [abs_mul, abs_of_pos (pow2_pos e)] at h1
    have hmq : |(m : ℚ)| < 2 ^ 24 := by exact_mod_cast hm
    have h2 : pow2 (ilog2 ((m : ℚ) * pow2 e)) < pow2 (24 + e) := by
      rw [pow2_add, show pow2 24 = 2 ^ 24 from pow2_natCast 24]
      have := mul_lt_mul_of_pos_right hmq (pow2_pos e)
      linarith
    have h3 : ilog2 ((m : ℚ) * pow2 e) < 24 + e := by
      by_contra hc
      exact absurd (pow2_le_pow2 (not_lt.mp hc)) (not_le.mpr h2)
    unfold ulpExp
    omega

/-- A binary32 result: at most 24 significand bits over a unit of at least 2 ^ (-149). -/
theorem rnd32_form (q : ℚ) : ∃ m e : Int, |m| < 2 ^ 24 ∧ -149 ≤ e ∧ rnd32 q = m * pow2 e := by
  have h := abs_roundEven_div_ulp_le q
  rcases h.lt_or_eq with hlt | heq
  · exact ⟨_, _, hlt, ulpExp_ge q, rfl⟩
  · have hs : pow2 (1 + ulpExp q) = 2 * pow2 (ulpExp q) := by
      rw [pow2_add]; simp [pow2]
    have hge : -149 ≤ 1 + ulpExp q := by have := ulpExp_ge q; omega
    rcases abs_eq (by norm_num : (0 : Int) ≤ 2 ^ 24) |>.mp heq with hp | hn
    · refine ⟨2 ^ 23, 1 + ulpExp q, by norm_num, hge, ?_⟩
      unfold rnd32; rw [hp, hs]; push_cast; ring
    · refine ⟨-2 ^ 23, 1 + ulpExp q, by norm_num, hge, ?_⟩
      unfold rnd32; rw [hn, hs]; push_cast; ring

@[simp] theorem rnd32_idem (q : ℚ) : rnd32 (rnd32 q) = rnd32 q := by
  obtain ⟨m, e, hm, he, h⟩ := rnd32_form q
  rw [h]; exact rnd32_of_significand hm he

/-- Integers of magnitude up to 2 ^ 24 are binary32 values. -/
theorem rnd32_intCast {n : Int} (h : |n| ≤ 2 ^ 24) : rnd32 (n : ℚ) = n := by
  rcases h.lt_or_eq with hlt | heq
  · have := rnd32_of_significand hlt (show (-149 : Int) ≤ 0 by norm_num)
    simpa [pow2] using this
  · have h2 : pow2 1 = 2 := by simp [pow2]
    rcases abs_eq (by norm_num : (0 : Int) ≤ 2 ^ 24) |>.mp heq with hp | hn
    · have := rnd32_of_significand (m := 2 ^ 23) (e := 1) (by norm_num) (by norm_num)
      rw [h2] at this; rw [hp]; push_cast at this ⊢; norm_num at this ⊢; exact this
    · have := rnd32_of_significand (m := -2 ^ 23) (e := 1) (by norm_num) (by norm_num)
      rw [h2] at this; rw [hn]; push_cast at this ⊢; norm_num at this ⊢; exact this

@[simp] theorem rnd32_zero : rnd32 0 = 0 := by simpa using rnd32_intCast (n := 0) (by norm_num)

theorem ilog2_neg (q : ℚ) : ilog2 (-q) = ilog2 q := by simp [ilog2]

theorem ulpExp_neg (q : ℚ) : ulpExp (-q) = ulpExp q := by simp [ulpExp, ilog2_neg]

theorem rnd32_neg (q : ℚ) : rnd32 (-q) = -rnd32 q := by
  unfold rnd32; rw [ulpExp_neg, neg_div, roundEven_neg]; push_cast; ring

theorem ilog2_mono {x y : ℚ} (hx : x ≠ 0) (h : |x| ≤ |y|) : ilog2 x ≤ ilog2 y := by
  have hy : y ≠ 0 := by rintro rfl; simp at h; exact hx h
  by_contra hc
  have h1 := (ilog2_spec hx).1
  have h2 := (ilog2_spec hy).2
  have h3 := pow2_le_pow2 (show ilog2 y + 1 ≤ ilog2 x by omega)
  linarith

theorem rnd32_nonneg {x : ℚ} (h : 0 ≤ x) : 0 ≤ rnd32 x := by
  have : (0 : Int) ≤ roundEven (x / pow2 (ulpExp x)) := by
    apply le_roundEven_of_intCast_le
    push_cast
    exact div_nonneg h (pow2_pos _).le
  exact mul_nonneg (by exact_mod_cast this) (pow2_pos _).le

/-- `rnd32` stays on its side of every binary32 value. -/
theorem rnd32_mono_pos {x y : ℚ} (hx : 0 < x) (h : x ≤ y) : rnd32 x ≤ rnd32 y := by
  have hy : 0 < y := lt_of_lt_of_le hx h
  have hlog : ilog2 x ≤ ilog2 y := ilog2_mono hx.ne' (by rwa [abs_of_pos hx, abs_of_pos hy])
  have hulp : ulpExp x ≤ ulpExp y := by unfold ulpExp; omega
  rcases hulp.lt_or_eq with hlt | heq
  · -- a power of two lies between them
    have hU : -149 < ulpExp y := lt_of_le_of_lt (ulpExp_ge x) hlt
    have hky : ulpExp y = ilog2 y - 23 := by unfold ulpExp at hU ⊢; omega
    have hkx : ulpExp x + 24 ≤ ilog2 y := by omega
    have hx1 : rnd32 x ≤ pow2 (24 + ulpExp x) := by
      have := (abs_le.mp (abs_roundEven_div_ulp_le x)).2
      rw [pow2_add, show pow2 24 = 2 ^ 24 from pow2_natCast 24]
      unfold rnd32
      apply mul_le_mul_of_nonneg_right _ (pow2_pos _).le
      exact_mod_cast this
    have hy1 : pow2 (ilog2 y) ≤ rnd32 y := by
      have h1 := (ilog2_spec hy.ne').1
      rw [abs_of_pos hy] at h1
      have hsplit : ilog2 y = 23 + ulpExp y := by omega
      unfold rnd32
      rw [hsplit, pow2_add, show pow2 23 = 2 ^ 23 from pow2_natCast 23]
      apply mul_le_mul_of_nonneg_right _ (pow2_pos _).le
      have : ((2 ^ 23 : Int)) ≤ roundEven (y / pow2 (ulpExp y)) := by
        apply le_roundEven_of_intCast_le
        rw [le_div_iff₀ (pow2_pos _)]
        rw [hsplit, pow2_add, show pow2 23 = 2 ^ 23 from pow2_natCast 23] at h1
        push_cast; exact h1
      exact_mod_cast this
    exact hx1.trans ((pow2_le_pow2 (by omega)).trans hy1)
  · unfold rnd32
    rw [heq]
    apply mul_le_mul_of_nonneg_right _ (pow2_pos _).le
    exact_mod_cast roundEven_mono (div_le_div_of_nonneg_right h (pow2_pos _).le)

theorem rnd32_mono {x y : ℚ} (h : x ≤ y) : rnd32 x ≤ rnd32 y := by
  rcases lt_or_ge 0 x with hx | hx
  · exact rnd32_mono_pos hx h
  · rcases lt_or_ge y 0 with hy | hy
    · have := rnd32_mono_pos (x := -y) (y := -x) (by linarith) (by linarith)
      rw [rnd32_neg, rnd32_neg] at this
      linarith
    · have h1 := rnd32_nonneg hy
      have h2 := rnd32_nonneg (x := -x) (by linarith)
      rw [rnd32_neg] at h2
      linarith

/-! ## rnd -/

@[simp] theorem rnd_exact (q : ℚ) : rnd .exact q = q := rfl

@[simp] theorem rnd_idem (f : NumFormat) (q : ℚ) : rnd f (rnd f q) = rnd f q := by cases f <;> simp [rnd]

theorem rnd_mono (f : NumFormat) {x y : ℚ} (h : x ≤ y) : rnd f x ≤ rnd f y := by
  cases f
  · exact rnd32_mono h
  · exact h

theorem rnd_neg (f : NumFormat) (q : ℚ) : rnd f (-q) = -rnd f q := by
  cases f
  · exact rnd32_neg q
  · rfl

@[simp] theorem rnd_zero (f : NumFormat) : rnd f 0 = 0 := by cases f <;> simp [rnd]

theorem rnd_intCast (f : NumFormat) {n : Int} (h : |n| ≤ 2 ^ 24) : rnd f (n : ℚ) = n := by
  cases f
  · exact rnd32_intCast h
  · rfl

theorem i2f_eq (f : NumFormat) {n : Int} (h : |n| ≤ 2 ^ 24) : i2f f n = n := rnd_intCast f h

theorem rnd_le_intCast (f : NumFormat) {q : ℚ} {n : Int} (hn : |n| ≤ 2 ^ 24) (h : q ≤ n) : rnd f q ≤ n := by
  simpa [rnd_intCast f hn] using rnd_mono f h

theorem intCast_le_rnd (f : NumFormat) {q : ℚ} {n : Int} (hn : |n| ≤ 2 ^ 24) (h : (n : ℚ) ≤ q) : (n : ℚ) ≤ rnd f q := by
  simpa [rnd_intCast f hn] using rnd_mono f h

/-! ## Comparisons and clamps -/

@[simp] theorem flt_iff (a b : ℚ) : flt a b = true ↔ a < b := by simp [flt]

@[simp] theorem fgt_iff (a b : ℚ) : fgt a b = true ↔ b < a := by simp [fgt]

theorem clamp_eq (v lo hi : ℚ) : clamp v lo hi = if v < lo then lo else if hi < v then hi else v := by
  simp [clamp]

/-- The clamp stays in its bounds (rule R8). -/
theorem clamp_mem {v lo hi : ℚ} (h : lo ≤ hi) : lo ≤ clamp v lo hi ∧ clamp v lo hi ≤ hi := by
  rw [clamp_eq]; split_ifs <;> constructor <;> linarith

/-- The result is one of the three arguments (rule R8). -/
theorem clamp_cases (v lo hi : ℚ) : clamp v lo hi = lo ∨ clamp v lo hi = hi ∨ clamp v lo hi = v := by
  rw [clamp_eq]; split_ifs <;> simp

theorem clamp_of_mem {v lo hi : ℚ} (h : lo ≤ v ∧ v ≤ hi) : clamp v lo hi = v := by
  rw [clamp_eq, if_neg (not_lt.mpr h.1), if_neg (not_lt.mpr h.2)]

theorem clampi_mem {v lo hi : Int} (h : lo ≤ hi) : lo ≤ clampi v lo hi ∧ clampi v lo hi ≤ hi := by
  unfold clampi; split_ifs <;> omega

theorem clampi_of_mem {v lo hi : Int} (h : lo ≤ v ∧ v ≤ hi) : clampi v lo hi = v := by
  unfold clampi; split_ifs <;> omega

theorem isNum_rnd (f : NumFormat) (q : ℚ) : isNum f (rnd f q) := rnd_idem f q

/-- A clamp of representable values is representable. -/
theorem isNum_clamp {f : NumFormat} {v lo hi : ℚ} (hv : isNum f v) (hlo : isNum f lo) (hhi : isNum f hi) :
    isNum f (clamp v lo hi) := by
  obtain h | h | h := clamp_cases v lo hi <;> rw [h] <;> assumption

/-! ## Truncation toward zero -/

theorem f2iTrunc_of_nonneg {a : ℚ} (h : 0 ≤ a) : f2iTrunc a = ⌊a⌋ := by
  unfold f2iTrunc
  rw [Int.tdiv_eq_ediv_of_nonneg (Rat.num_nonneg.mpr h)]
  exact (Rat.floor_def a).symm

theorem f2iTrunc_neg (a : ℚ) : f2iTrunc (-a) = -f2iTrunc a := by
  unfold f2iTrunc; rw [Rat.num_neg_eq_neg_num, Rat.den_neg_eq_den, Int.neg_tdiv]

/-- Truncation never increases the magnitude (rule R70). -/
theorem abs_f2iTrunc_le (a : ℚ) : |(f2iTrunc a : ℚ)| ≤ |a| := by
  rcases le_or_gt 0 a with h | h
  · rw [f2iTrunc_of_nonneg h, abs_of_nonneg h, abs_of_nonneg (by exact_mod_cast Int.floor_nonneg.mpr h)]
    exact Int.floor_le a
  · have h2 : 0 ≤ -a := by linarith
    have h3 : f2iTrunc a = -⌊-a⌋ := by rw [← f2iTrunc_of_nonneg h2, f2iTrunc_neg, neg_neg]
    rw [h3, abs_of_neg h]; push_cast
    rw [abs_neg, abs_of_nonneg (by exact_mod_cast Int.floor_nonneg.mpr h2)]
    exact Int.floor_le _

end Sys2Proof.Machine
end

