-- ==== Sys2Proof/Laws/State.lean ====
section
/-! SUPPORT. One lemma per field per state update, each true by unfolding, so that no later proof unfolds a record
update. -/

namespace Sys2Proof.Machine

variable (s : State)

/-! ## startMotors -/

@[simp] theorem State.startMotors_p : s.startMotors.p = s.p := rfl

@[simp] theorem State.startMotors_ctrl : s.startMotors.ctrl = ⟨true, true⟩ := rfl

@[simp] theorem State.startMotors_cs : s.startMotors.cs = s.cs := rfl

@[simp] theorem State.startMotors_mbox : s.startMotors.mbox = s.mbox := rfl

@[simp] theorem State.startMotors_cfg : s.startMotors.cfg = s.cfg := rfl

@[simp] theorem State.startMotors_inputs : s.startMotors.inputs = s.inputs := rfl

@[simp] theorem State.startMotors_out : s.startMotors.out = s.out := rfl

@[simp] theorem State.startMotors_freeCount : s.startMotors.freeCount = s.freeCount := rfl

/-! ## stopMotors -/

@[simp] theorem State.stopMotors_p : s.stopMotors.p = s.p := rfl

@[simp] theorem State.stopMotors_ctrl : s.stopMotors.ctrl = ⟨s.ctrl.carStarted, false⟩ := rfl

@[simp] theorem State.stopMotors_cs : s.stopMotors.cs = s.cs := rfl

@[simp] theorem State.stopMotors_mbox : s.stopMotors.mbox = s.mbox := rfl

@[simp] theorem State.stopMotors_cfg : s.stopMotors.cfg = s.cfg := rfl

@[simp] theorem State.stopMotors_inputs : s.stopMotors.inputs = s.inputs := rfl

@[simp] theorem State.stopMotors_out : s.stopMotors.out = s.out := rfl

@[simp] theorem State.stopMotors_freeCount : s.stopMotors.freeCount = s.freeCount := rfl

/-! ## clearFull -/

@[simp] theorem State.clearFull_p : s.clearFull.p = s.p := rfl

@[simp] theorem State.clearFull_ctrl : s.clearFull.ctrl = s.ctrl := rfl

@[simp] theorem State.clearFull_cs : s.clearFull.cs = s.cs := rfl

@[simp] theorem State.clearFull_mbox : s.clearFull.mbox = ⟨false, s.mbox.data⟩ := rfl

@[simp] theorem State.clearFull_cfg : s.clearFull.cfg = s.cfg := rfl

@[simp] theorem State.clearFull_inputs : s.clearFull.inputs = s.inputs := rfl

@[simp] theorem State.clearFull_out : s.clearFull.out = s.out := rfl

@[simp] theorem State.clearFull_freeCount : s.clearFull.freeCount = s.freeCount := rfl

/-! ## fillMailbox -/

@[simp] theorem State.fillMailbox_p (F : Frame) : (s.fillMailbox F).p = s.p := rfl

@[simp] theorem State.fillMailbox_ctrl (F : Frame) : (s.fillMailbox F).ctrl = s.ctrl := rfl

@[simp] theorem State.fillMailbox_cs (F : Frame) : (s.fillMailbox F).cs = s.cs := rfl

@[simp] theorem State.fillMailbox_mbox (F : Frame) : (s.fillMailbox F).mbox = ⟨true, F⟩ := rfl

@[simp] theorem State.fillMailbox_cfg (F : Frame) : (s.fillMailbox F).cfg = s.cfg := rfl

@[simp] theorem State.fillMailbox_inputs (F : Frame) : (s.fillMailbox F).inputs = s.inputs := rfl

@[simp] theorem State.fillMailbox_out (F : Frame) : (s.fillMailbox F).out = s.out := rfl

@[simp] theorem State.fillMailbox_freeCount (F : Frame) : (s.fillMailbox F).freeCount = s.freeCount := rfl

/-! ## emit -/

@[simp] theorem State.emit_p (e : Event) : (s.emit e).p = s.p := rfl

@[simp] theorem State.emit_ctrl (e : Event) : (s.emit e).ctrl = s.ctrl := rfl

@[simp] theorem State.emit_cs (e : Event) : (s.emit e).cs = s.cs := rfl

@[simp] theorem State.emit_mbox (e : Event) : (s.emit e).mbox = s.mbox := rfl

@[simp] theorem State.emit_cfg (e : Event) : (s.emit e).cfg = s.cfg := rfl

@[simp] theorem State.emit_inputs (e : Event) : (s.emit e).inputs = s.inputs := rfl

@[simp] theorem State.emit_out (e : Event) : (s.emit e).out = s.out ++ [e] := rfl

@[simp] theorem State.emit_freeCount (e : Event) : (s.emit e).freeCount = s.freeCount := rfl

/-! ## tune -/

@[simp] theorem State.tune_p (i : Param) (v : Int) : (s.tune i v).p = Params.store s.cfg.num s.p i (tuneOperand s.cfg i v) := rfl

@[simp] theorem State.tune_ctrl (i : Param) (v : Int) : (s.tune i v).ctrl = s.ctrl := rfl

@[simp] theorem State.tune_cs (i : Param) (v : Int) : (s.tune i v).cs = s.cs := rfl

@[simp] theorem State.tune_mbox (i : Param) (v : Int) : (s.tune i v).mbox = s.mbox := rfl

@[simp] theorem State.tune_cfg (i : Param) (v : Int) : (s.tune i v).cfg = s.cfg := rfl

@[simp] theorem State.tune_inputs (i : Param) (v : Int) : (s.tune i v).inputs = s.inputs := rfl

@[simp] theorem State.tune_out (i : Param) (v : Int) : (s.tune i v).out = s.out := rfl

@[simp] theorem State.tune_freeCount (i : Param) (v : Int) : (s.tune i v).freeCount = s.freeCount := rfl

/-! ## withInputs -/

@[simp] theorem State.withInputs_p (l : List Input) : (s.withInputs l).p = s.p := rfl

@[simp] theorem State.withInputs_ctrl (l : List Input) : (s.withInputs l).ctrl = s.ctrl := rfl

@[simp] theorem State.withInputs_cs (l : List Input) : (s.withInputs l).cs = s.cs := rfl

@[simp] theorem State.withInputs_mbox (l : List Input) : (s.withInputs l).mbox = s.mbox := rfl

@[simp] theorem State.withInputs_cfg (l : List Input) : (s.withInputs l).cfg = s.cfg := rfl

@[simp] theorem State.withInputs_inputs (l : List Input) : (s.withInputs l).inputs = l := rfl

@[simp] theorem State.withInputs_out (l : List Input) : (s.withInputs l).out = s.out := rfl

@[simp] theorem State.withInputs_freeCount (l : List Input) : (s.withInputs l).freeCount = s.freeCount := rfl

/-! ## resetStep -/

@[simp] theorem resetStep_p : (resetStep s).p = s.cfg.resetP := rfl

@[simp] theorem resetStep_ctrl : (resetStep s).ctrl = Ctrl.reset := rfl

@[simp] theorem resetStep_cs : (resetStep s).cs = ControllerState.reset := rfl

@[simp] theorem resetStep_mbox : (resetStep s).mbox = ⟨false, Config.freeFrame s.freeCount⟩ := rfl

@[simp] theorem resetStep_cfg : (resetStep s).cfg = s.cfg := rfl

@[simp] theorem resetStep_inputs : (resetStep s).inputs = s.inputs := rfl

@[simp] theorem resetStep_out : (resetStep s).out = s.out := rfl

@[simp] theorem resetStep_freeCount : (resetStep s).freeCount = s.freeCount + 1 := rfl

/-! ## runPipeline -/

@[simp] theorem runPipeline_p (m : Mask) (now : Millis) : (runPipeline s m now).p = s.p := rfl

@[simp] theorem runPipeline_ctrl (m : Mask) (now : Millis) : (runPipeline s m now).ctrl = s.ctrl := rfl

@[simp] theorem runPipeline_cs (m : Mask) (now : Millis) : (runPipeline s m now).cs = pidState s.cfg.num s.cs (tickError s m) now := rfl

@[simp] theorem runPipeline_mbox (m : Mask) (now : Millis) : (runPipeline s m now).mbox = s.mbox := rfl

@[simp] theorem runPipeline_cfg (m : Mask) (now : Millis) : (runPipeline s m now).cfg = s.cfg := rfl

@[simp] theorem runPipeline_inputs (m : Mask) (now : Millis) : (runPipeline s m now).inputs = s.inputs := rfl

@[simp] theorem runPipeline_out (m : Mask) (now : Millis) : (runPipeline s m now).out = s.out ++ [tickMotor s m now] ++ [.ledMirror m] := rfl

@[simp] theorem runPipeline_freeCount (m : Mask) (now : Millis) : (runPipeline s m now).freeCount = s.freeCount := rfl

/-! ## The phase -/

@[simp] theorem State.startMotors_phase : s.startMotors.phase = .running := rfl

@[simp] theorem State.clearFull_phase : s.clearFull.phase = s.phase := rfl

@[simp] theorem State.fillMailbox_phase (F : Frame) : (s.fillMailbox F).phase = s.phase := rfl

@[simp] theorem State.emit_phase (e : Event) : (s.emit e).phase = s.phase := rfl

@[simp] theorem State.tune_phase (i : Param) (v : Int) : (s.tune i v).phase = s.phase := rfl

@[simp] theorem State.withInputs_phase (l : List Input) : (s.withInputs l).phase = s.phase := rfl

@[simp] theorem resetStep_phase : (resetStep s).phase = .idle := rfl

@[simp] theorem runPipeline_phase (m : Mask) (now : Millis) : (runPipeline s m now).phase = s.phase := rfl

theorem State.stopMotors_phase : s.stopMotors.phase = if s.phase = .idle then .idle else .stopped := by
  cases hc : s.ctrl.carStarted <;> cases hm : s.ctrl.motorsEnabled <;> simp [State.phase, Ctrl.phase, hc, hm]

theorem State.phase_idle_iff : s.phase = .idle ↔ s.ctrl.carStarted = false := by
  cases hc : s.ctrl.carStarted <;> cases hm : s.ctrl.motorsEnabled <;> simp [State.phase, Ctrl.phase, hc, hm]

theorem State.phase_running_iff :
    s.phase = .running ↔ s.ctrl.carStarted = true ∧ s.ctrl.motorsEnabled = true := by
  cases hc : s.ctrl.carStarted <;> cases hm : s.ctrl.motorsEnabled <;> simp [State.phase, Ctrl.phase, hc, hm]

theorem State.phase_stopped_iff :
    s.phase = .stopped ↔ s.ctrl.carStarted = true ∧ s.ctrl.motorsEnabled = false := by
  cases hc : s.ctrl.carStarted <;> cases hm : s.ctrl.motorsEnabled <;> simp [State.phase, Ctrl.phase, hc, hm]

end Sys2Proof.Machine
end

