-- ==== Sys2Proof/Laws/Ops.lean ====
section
/-! SUPPORT. One lemma per shared operation that says everything it can do: sequencing, Deliver, the dispatch and drain of
a frame, the phase arm, one environment step. Later proofs cite these and do not unfold the operations. -/

namespace Sys2Proof.Machine

@[simp] theorem thenRun_next (s : State) (k : State → Result) : thenRun (.next s) k = k s := rfl

theorem deliver_of_full {s : State} (F : Frame) (h : s.mbox.full = true) : deliver F s = s := by
  simp [deliver, h]

theorem deliver_of_empty {s : State} (F : Frame) (h : s.mbox.full = false) : deliver F s = s.fillMailbox F := by
  simp [deliver, h]

/-- What executing a frame answers: always a next state, one of four (rules R92-R101). -/
theorem execFrame_cases (F : Frame) (s : State) :
    execFrame F s = .next s.startMotors ∨ execFrame F s = .next s.stopMotors ∨
    (∃ i v, execFrame F s = .next (s.tune i v)) ∨ (∃ G, execFrame F s = .next (s.emit (.echo G))) ∨
    execFrame F s = .next s := by
  unfold execFrame
  split
  · exact .inl rfl
  · exact .inr (.inl rfl)
  · exact .inr (.inr (.inl ⟨_, _, rfl⟩))
  · exact .inr (.inr (.inl ⟨_, _, rfl⟩))
  · exact .inr (.inr (.inl ⟨_, _, rfl⟩))
  · exact .inr (.inr (.inl ⟨_, _, rfl⟩))
  · exact .inr (.inr (.inl ⟨_, _, rfl⟩))
  · exact .inr (.inr (.inr (.inl ⟨_, rfl⟩)))
  · exact .inr (.inr (.inr (.inr rfl)))
  · exact .inr (.inr (.inr (.inr rfl)))
  · exact .inr (.inr (.inr (.inr rfl)))
  · exact .inr (.inr (.inr (.inr rfl)))

/-- A drained frame runs exactly the meaning of the instruction it decodes to (rule R91). -/
theorem execFrame_eq_exec {F : Frame} {i : Instr} (h : decodeFrame F = .ok i) (s : State) :
    execFrame F s = exec i s := by
  unfold execFrame
  cases i with
  | tick sb now => exact absurd h (decodeFrame_ne_tick F sb now)
  | _ => simp only [h, exec]

/-- A frame that no row names is dropped (rule R101). -/
theorem execFrame_of_error {F : Frame} {e : DecodeError} (h : decodeFrame F = .error e) (s : State) :
    execFrame F s = .next s := by
  simp [execFrame, h, dropInvalid]

theorem drain_of_full {s : State} (h : s.mbox.full = true) : drain s = execFrame s.mbox.data s.clearFull := by
  simp [drain, h]

theorem drain_of_empty {s : State} (h : s.mbox.full = false) : drain s = .next s := by
  simp [drain, h]

/-- What the drain answers: always a next state (rule R37). -/
theorem drain_cases (s : State) :
    (s.mbox.full = false ∧ drain s = .next s) ∨
    (s.mbox.full = true ∧
      (drain s = .next s.clearFull.startMotors ∨ drain s = .next s.clearFull.stopMotors ∨
       (∃ i v, drain s = .next (s.clearFull.tune i v)) ∨ (∃ G, drain s = .next (s.clearFull.emit (.echo G))) ∨
       drain s = .next s.clearFull)) := by
  cases h : s.mbox.full
  · exact .inl ⟨rfl, drain_of_empty h⟩
  · refine .inr ⟨rfl, ?_⟩
    rw [drain_of_full h]
    exact execFrame_cases _ _

theorem phaseArm_of_idle {s : State} (sb : BitVec 8) (now : Millis) (h : s.phase = .idle) :
    phaseArm sb now s = .next s := by
  simp [phaseArm, h]

theorem phaseArm_of_running {s : State} (sb : BitVec 8) (now : Millis) (h : s.phase = .running) :
    phaseArm sb now s = .next (runPipeline s (sensorMask sb) now) := by
  simp [phaseArm, h]

theorem phaseArm_of_stopped {s : State} (sb : BitVec 8) (now : Millis) (h : s.phase = .stopped) :
    phaseArm sb now s = .next (s.emit zeroSpeed) := by
  simp [phaseArm, h]

/-- What the phase arm answers: always a next state (rules R83, R84, R85). -/
theorem phaseArm_cases (sb : BitVec 8) (now : Millis) (s : State) :
    (s.phase = .idle ∧ phaseArm sb now s = .next s) ∨
    (s.phase = .running ∧ phaseArm sb now s = .next (runPipeline s (sensorMask sb) now)) ∨
    (s.phase = .stopped ∧ phaseArm sb now s = .next (s.emit zeroSpeed)) := by
  cases h : s.phase
  · exact .inl ⟨rfl, phaseArm_of_idle sb now h⟩
  · exact .inr (.inl ⟨rfl, phaseArm_of_running sb now h⟩)
  · exact .inr (.inr ⟨rfl, phaseArm_of_stopped sb now h⟩)

@[simp] theorem exec_tick (sb : BitVec 8) (now : Millis) (s : State) :
    exec (.tick sb now) s = thenRun (drain s) (phaseArm sb now) := rfl

theorem step_of_nil {s : State} (h : s.inputs = []) : step s = .next s := by
  simp [step, h, idleStep]

theorem step_of_deliver {s : State} {F : Frame} {rest : List Input} (h : s.inputs = .deliver F :: rest) :
    step s = .next (deliver F (s.withInputs rest)) := by
  simp [step, h, performInput]

theorem step_of_tick {s : State} {T : Frame} {rest : List Input} (h : s.inputs = .tick T :: rest) :
    step s = thenRun (drain (s.withInputs rest)) (phaseArm (T.extractLsb' 0 8) (T.extractLsb' 8 32)) := by
  simp [step, h, performInput, decodeTick]

theorem step_of_reset {s : State} {rest : List Input} (h : s.inputs = .reset :: rest) :
    step s = .next (resetStep (s.withInputs rest)) := by
  simp [step, h, performInput]

end Sys2Proof.Machine
end

