-- ==== Sys2Proof/Laws/PerInstr.lean ====
section
/-! SUPPORT. Statements made per instruction: the word the encoder gives an instruction matches the mask and match of its
row of the opcode table (`spec/30_encoding.md` rule R52). -/

namespace Sys2Proof.Laws.TableRow

/-- The row's mask (rule R52). -/
def mask : Instr → Frame
  | .startCar _ => 0x000000FFFF#40
  | .stopCar _ => 0x000000FFFF#40
  | .tuneBase _ => 0x0000FFFFFF#40
  | .tuneMaxc _ => 0x0000FFFFFF#40
  | .tuneKp _ => 0x0000FFFFFF#40
  | .tuneKd _ => 0x0000FFFFFF#40
  | .tuneKi _ => 0x0000FFFFFF#40
  | .echo _ => 0x00000000FF#40
  | .rsvd0 _ => 0x00000000FF#40
  | .cm0Local _ => 0x00000000FF#40
  | .tick _ _ => 0x0000000000#40

/-- The row's match (rule R52). -/
def value : Instr → Frame
  | .startCar _ => 0x0000000102#40
  | .stopCar _ => 0x0000000202#40
  | .tuneBase _ => 0x0000000302#40
  | .tuneMaxc _ => 0x0000010302#40
  | .tuneKp _ => 0x0000020302#40
  | .tuneKd _ => 0x0000030302#40
  | .tuneKi _ => 0x0000040302#40
  | .echo _ => 0x0000000003#40
  | .rsvd0 _ => 0x0000000000#40
  | .cm0Local _ => 0x0000000001#40
  | .tick _ _ => 0x0000000000#40

/-- The word selects its row: `F & mask = match` (rule R52). -/
def Statement (i : Instr) : Prop := encode i &&& mask i = value i

/-- Masking a word of three parts under its lower two bytes. -/
theorem and_lower_two (n : Nat) (x : BitVec n) (y z : Byte) :
    (x ++ y ++ z) &&& (0#n ++ 0xFF#8 ++ 0xFF#8) = 0#n ++ y ++ z := by
  rw [BitVec.and_append, BitVec.and_append, show (0xFF#8) = BitVec.allOnes 8 from rfl]
  simp only [BitVec.and_allOnes, BitVec.and_zero]

/-- Masking a word of two parts under its lowest byte. -/
theorem and_lowest (n : Nat) (x : BitVec n) (z : Byte) : (x ++ z) &&& (0#n ++ 0xFF#8) = 0#n ++ z := by
  rw [BitVec.and_append, show (0xFF#8) = BitVec.allOnes 8 from rfl]
  simp only [BitVec.and_allOnes, BitVec.and_zero]

/-- Masking a word of four parts under its lower three bytes. -/
theorem and_lower_three (n : Nat) (x : BitVec n) (w y z : Byte) :
    (x ++ w ++ y ++ z) &&& (0#n ++ 0xFF#8 ++ 0xFF#8 ++ 0xFF#8) = 0#n ++ w ++ y ++ z := by
  rw [BitVec.and_append, BitVec.and_append, BitVec.and_append, show (0xFF#8) = BitVec.allOnes 8 from rfl]
  simp only [BitVec.and_allOnes, BitVec.and_zero]

theorem startCar (x : BitVec 24) : Statement (.startCar x) := and_lower_two 24 x Config.subStart 0x02#8

theorem stopCar (x : BitVec 24) : Statement (.stopCar x) := and_lower_two 24 x Config.subStop 0x02#8

theorem tuneBase (v : Int) : Statement (.tuneBase v) := and_lower_three 16 _ 0x00#8 Config.subTune 0x02#8

theorem tuneMaxc (v : Int) : Statement (.tuneMaxc v) := and_lower_three 16 _ 0x01#8 Config.subTune 0x02#8

theorem tuneKp (v : Int) : Statement (.tuneKp v) := and_lower_three 16 _ 0x02#8 Config.subTune 0x02#8

theorem tuneKd (v : Int) : Statement (.tuneKd v) := and_lower_three 16 _ 0x03#8 Config.subTune 0x02#8

theorem tuneKi (v : Int) : Statement (.tuneKi v) := and_lower_three 16 _ 0x04#8 Config.subTune 0x02#8

theorem echo (p : BitVec 32) : Statement (.echo p) := and_lowest 32 p 0x03#8

theorem rsvd0 (x : BitVec 32) : Statement (.rsvd0 x) := and_lowest 32 x 0x00#8

theorem cm0Local (x : BitVec 32) : Statement (.cm0Local x) := and_lowest 32 x 0x01#8

theorem tick (s : BitVec 8) (now : Millis) : Statement (.tick s now) := BitVec.and_zero

end Sys2Proof.Laws.TableRow
end

