-- ==== Sys2Proof/Laws/Run.lean ====
section
/-! SUPPORT. One step by the case of its input, one step of a run, and what the drain and the phase arm leave alone. -/

namespace Sys2Proof.Machine

/-- Everything a step that answers a next state can have done (rules R9, R33). -/
theorem step_cases {s t : State} (h : step s = .next t) :
    (s.inputs = [] ∧ t = s) ∨
    (∃ F rest, s.inputs = .deliver F :: rest ∧ t = deliver F (s.withInputs rest)) ∨
    (∃ rest, s.inputs = .reset :: rest ∧ t = resetStep (s.withInputs rest)) ∨
    (∃ T rest u, s.inputs = .tick T :: rest ∧ drain (s.withInputs rest) = .next u ∧
      phaseArm (T.extractLsb' 0 8) (T.extractLsb' 8 32) u = .next t) := by
  rcases hi : s.inputs with _ | ⟨i, rest⟩
  · rw [step_of_nil hi] at h; cases h; exact .inl ⟨rfl, rfl⟩
  · cases i with
    | deliver F => rw [step_of_deliver hi] at h; cases h; exact .inr (.inl ⟨F, rest, rfl, rfl⟩)
    | reset => rw [step_of_reset hi] at h; cases h; exact .inr (.inr (.inl ⟨rest, rfl, rfl⟩))
    | tick T =>
      rw [step_of_tick hi] at h
      cases hd : drain (s.withInputs rest) with
      | next u => rw [hd, thenRun_next] at h; exact .inr (.inr (.inr ⟨T, rest, u, rfl, hd, h⟩))
      | fault e => cases e
      | refused e => rw [hd] at h; cases h

/-- One step more of a run. -/
theorem run_succ {s t : State} (n : Nat) (h : step s = .next t) : core.run (n + 1) s = core.run n t := by
  have general : ∀ (M : Host.Core) (a b : M.State), M.step a = .next b → M.run (n + 1) a = M.run n b := by
    intro M a b hab; simp [Host.Core.run, hab]
  exact general core s t h

/-- The drain answers a next state (rule R37). -/
theorem drain_total (s : State) : ∃ t, drain s = .next t := by
  obtain ⟨-, e⟩ | ⟨-, e | e | ⟨i, v, e⟩ | ⟨G, e⟩ | e⟩ := drain_cases s <;> exact ⟨_, e⟩

/-- What the drain leaves alone (rules R24, R37). -/
theorem drain_frame {s t : State} (h : drain s = .next t) :
    t.cs = s.cs ∧ t.cfg = s.cfg ∧ t.inputs = s.inputs ∧ t.freeCount = s.freeCount ∧ t.mbox.full = false ∧
    t.mbox.data = s.mbox.data := by
  obtain ⟨h0, e⟩ | ⟨-, e | e | ⟨i, v, e⟩ | ⟨G, e⟩ | e⟩ := drain_cases s <;> rw [e] at h <;> cases h <;> simp
  exact h0

/-- The phase arm answers a next state (rule R81). -/
theorem phaseArm_total (sb : BitVec 8) (now : Millis) (s : State) : ∃ t, phaseArm sb now s = .next t := by
  obtain ⟨-, e⟩ | ⟨-, e⟩ | ⟨-, e⟩ := phaseArm_cases sb now s <;> exact ⟨_, e⟩

/-- What the phase arm leaves alone (rules R83, R84, R85). -/
theorem phaseArm_frame {sb : BitVec 8} {now : Millis} {s t : State} (h : phaseArm sb now s = .next t) :
    t.p = s.p ∧ t.ctrl = s.ctrl ∧ t.mbox = s.mbox ∧ t.cfg = s.cfg ∧ t.inputs = s.inputs ∧
    t.freeCount = s.freeCount := by
  obtain ⟨-, e⟩ | ⟨-, e⟩ | ⟨-, e⟩ := phaseArm_cases sb now s <;> rw [e] at h <;> cases h <;>
    exact ⟨rfl, rfl, rfl, rfl, rfl, rfl⟩

end Sys2Proof.Machine
end

