-- ==== Sys2Proof/Tests/Slice0.lean ====
section
/-! SUPPORT. Small tests. Expected values come from the spec: the vectors and examples of `spec/95_test_vectors.md` and of
the rules named. The last part shows, for every statement with hypotheses, concrete states and operands that meet them. -/

open Sys2Proof Sys2Proof.Machine

namespace Sys2Proof.Tests

/-- A legal configuration: `POL` = +1 and the reset parameters (1500, 1000, 2, 0, 0). -/
def cfg : Config where
  num := .binary32
  pol := .plus
  resetP := ⟨1500#16, 1000#16, 2, 0, 0⟩
  tuneBaseSpeed := .int16
  tuneMaxCorrection := .nonneg
  tuneKP := .int16
  tuneKD := .int16
  tuneKI := .int16
  tickPeriodMs := 20

/-- A state with the flags, the controller state, the mailbox and the schedule given. -/
def at_ (ctrl : Ctrl) (cs : ControllerState) (mbox : Mailbox) (inputs : List Input) : State where
  p := cfg.resetP
  ctrl := ctrl
  cs := cs
  mbox := mbox
  cfg := cfg
  inputs := inputs
  out := []
  freeCount := 1

def idle : Ctrl := ⟨false, false⟩

def running : Ctrl := ⟨true, true⟩

def stopped : Ctrl := ⟨true, false⟩

def empty : Mailbox := ⟨false, 0#40⟩

def cs0 : ControllerState := ⟨0, 0, 1000#32⟩

/-- The next state of an answer, if it is one. -/
def after (r : Result) (q : State → Bool) : Bool :=
  match r with
  | .next s => q s
  | .fault _ => false
  | .refused _ => false

/-! ## Well-formedness: a value no encoding holds is refused -/

theorem test_wf_tuneBase : (Instr.tuneBase 32768).wellFormed = false ∧ (Instr.tuneBase 32767).wellFormed = true := by decide

theorem test_wf_tuneMaxc : (Instr.tuneMaxc (-32769)).wellFormed = false ∧ (Instr.tuneMaxc (-32768)).wellFormed = true := by
  decide

theorem test_wf_tuneKp : (Instr.tuneKp 32768).wellFormed = false ∧ (Instr.tuneKp (-32768)).wellFormed = true := by decide

theorem test_wf_tuneKd : (Instr.tuneKd (-32769)).wellFormed = false ∧ (Instr.tuneKd 32767).wellFormed = true := by decide

theorem test_wf_tuneKi : (Instr.tuneKi 65535).wellFormed = false ∧ (Instr.tuneKi (-1)).wellFormed = true := by decide

/-! ## Decoding, from words written out bit by bit (rule R52, vectors V-CMD) -/

theorem test_decode_startCar : decodeFrame 0b0000000000000000000000000000000100000010#40 = .ok (.startCar 0#24) := by decide

theorem test_decode_stopCar :
    decodeFrame 0b0101011000110100000100100000001000000010#40 = .ok (.stopCar 0x563412#24) := by decide

theorem test_decode_tuneBase :
    decodeFrame 0b0000010111011100000000000000001100000010#40 = .ok (.tuneBase 1500) := by decide

theorem test_decode_tuneMaxc :
    decodeFrame 0b1111111111111011000000010000001100000010#40 = .ok (.tuneMaxc (-5)) := by decide

theorem test_decode_tuneKp :
    decodeFrame 0b0000001011101110000000100000001100000010#40 = .ok (.tuneKp 750) := by decide

theorem test_decode_tuneKd :
    decodeFrame 0b1111111111111111000000110000001100000010#40 = .ok (.tuneKd (-1)) := by decide

theorem test_decode_tuneKi :
    decodeFrame 0b1111111111111101000001000000001100000010#40 = .ok (.tuneKi (-3)) := by decide

theorem test_decode_echo :
    decodeFrame 0b1110111110111110101011011101111000000011#40 = .ok (.echo 0xEFBEADDE#32) := by decide

theorem test_decode_rsvd0 : decodeFrame 0b0000000000000000000000000000000000000000#40 = .ok (.rsvd0 0#32) := by decide

theorem test_decode_cm0Local : decodeFrame 0b0000000000000000000000000000000100000001#40 = .ok (.cm0Local 1#32) := by decide

theorem test_decode_tick : decodeTick 0b0000000000000000000000111111001000000001#40 = .tick 0x01#8 1010#32 := by decide

/-- Rule R50: the three kinds of INVALID frame no row names (vectors V-CMD), and a wrong length. -/
theorem test_decode_rejects :
    decodeBytes [0x04#8, 0x01#8, 0#8, 0#8, 0#8] = .error (.unknownOpcode 0x04#8) ∧
    decodeBytes [0x02#8, 0x09#8, 0#8, 0#8, 0#8] = .error (.unknownSubcommand 0x09#8) ∧
    decodeBytes [0x02#8, 0x03#8, 0x05#8, 0x10#8, 0#8] = .error (.unknownParamIndex 0x05#8) ∧
    decodeBytes [0x02#8, 0x01#8] = .error (.malformedLength 2) := by decide

/-- Rule R42: `f[0]` is first on the wire and least significant. -/
theorem test_decode_bytes : decodeBytes [0x02#8, 0x03#8, 0x02#8, 0xEE#8, 0x02#8] = .ok (.tuneKp 750) := by decide

theorem test_encode_tuneMaxc : encode (.tuneMaxc (-5)) = 0xFFFB010302#40 := by decide

theorem test_encode_tick : encode (.tick 0x90#8 1000#32) = 0x000003E890#40 := by decide

/-- The table's words of the rows, in the table's numbering. -/
theorem test_decodeTableWord :
    decodeTableWord 40 0x0000000102 = some (.startCar 0#24) ∧ decodeTableWord 40 0x0000000202 = some (.stopCar 0#24) ∧
    decodeTableWord 40 0x02EE020302 = some (.tuneKp 750) ∧ decodeTableWord 40 0x0000000003 = some (.echo 0#32) ∧
    decodeTableWord 40 0x000003F208 = some (.tick 0x08#8 0x000003F2#32) := by decide

/-! ## One step of each instruction -/

/-- Rule R92's example. -/
theorem test_exec_startCar :
    after (exec (.startCar 0#24) (at_ idle cs0 empty [])) (fun s => s.ctrl = running) = true := by decide +kernel

/-- Rule R93's example: carStarted is not cleared. -/
theorem test_exec_stopCar :
    after (exec (.stopCar 0#24) (at_ running cs0 empty [])) (fun s => s.ctrl = stopped) = true := by decide +kernel

/-- V-CMD-4b. -/
theorem test_exec_tuneBase :
    after (exec (.tuneBase (-32768)) (at_ idle cs0 empty [])) (fun s => s.p = ⟨0x8000#16, 1000#16, 2, 0, 0⟩) = true := by
  decide +kernel

/-- V-CMD-5b. -/
theorem test_exec_tuneMaxc :
    after (exec (.tuneMaxc (-5)) (at_ idle cs0 empty [])) (fun s => s.p = ⟨1500#16, 0#16, 2, 0, 0⟩) = true := by
  decide +kernel

/-- V-CMD-3. -/
theorem test_exec_tuneKp :
    after (exec (.tuneKp 750) (at_ idle cs0 empty [])) (fun s => s.p = ⟨1500#16, 1000#16, 750, 0, 0⟩) = true := by
  decide +kernel

/-- V-CMD-6. -/
theorem test_exec_tuneKd :
    after (exec (.tuneKd (-1)) (at_ idle cs0 empty [])) (fun s => s.p = ⟨1500#16, 1000#16, 2, -1, 0⟩) = true := by
  decide +kernel

/-- V-CMD-7. -/
theorem test_exec_tuneKi :
    after (exec (.tuneKi (-3)) (at_ idle cs0 empty [])) (fun s => s.p = ⟨1500#16, 1000#16, 2, 0, -3⟩) = true := by
  decide +kernel

/-- V-CMD-8. -/
theorem test_exec_echo :
    after (exec (.echo 0xEFBEADDE#32) (at_ idle cs0 empty [])) (fun s => s.out = [.echo 0xEFBEADDE03#40]) = true := by
  decide +kernel

/-- Rule R101's example. -/
theorem test_exec_rsvd0 :
    after (exec (.rsvd0 0#32) (at_ running cs0 empty [])) (fun s => s = at_ running cs0 empty []) = true := by
  decide +kernel

/-- Rule R101's example. -/
theorem test_exec_cm0Local :
    after (exec (.cm0Local 1#32) (at_ running cs0 empty [])) (fun s => s = at_ running cs0 empty []) = true := by
  decide +kernel

/-- Rule R81's example: `Tick(0x01, 1010)` in phase Running. -/
theorem test_exec_tick_running :
    after (exec (.tick 0x01#8 1010#32) (at_ running cs0 empty [])) (fun s =>
      s.out = [.motorCmd 2500 2500 500 500, .ledMirror 0x01#7] && s.cs = ⟨3000, 30, 1010#32⟩) = true := by
  decide +kernel

/-- Rule R93's example: the Tick that drains STOP_CAR already applies the zero command and leaves `CS`. -/
theorem test_exec_tick_stop :
    after (exec (.tick 0x10#8 1040#32) (at_ running cs0 ⟨true, 0x0000000202#40⟩ [])) (fun s =>
      s.out = [.motorCmd 0 0 0 0] && s.ctrl = stopped && s.cs = cs0 && !s.mbox.full) = true := by
  decide +kernel

/-! ## The estimator, the controller and the mixer on vectors -/

/-- V-EST rows 0x3A, 0x0B and 0x6F, and V-EST-0a, V-EST-0c. -/
theorem test_est :
    est .binary32 0x3A#7 0 = 250 ∧ est .exact 0x0B#7 0 = -5000 / 3 ∧ est .binary32 0x6F#7 0 = -(0x26AAAB + 0x800000) / 2 ^ 16 ∧
    est .binary32 0#7 0 = 3000 ∧ est .binary32 0#7 (-250) = -3000 := by decide +kernel

/-- V-PID-10a under binary32: `3000 / rnd(0.001)` rounds to 2999999.75, and the integral is one unit above 3. -/
theorem test_pid_10a :
    dTerm .binary32 1 3000 0 (dtFloor .binary32) = 2999999 + 3 / 4 ∧
    nextIntegral .binary32 0 3000 (dtFloor .binary32) = (0x400001 + 0x800000) / 2 ^ 22 := by decide +kernel

/-- V-PID-11b: the sum under binary32. -/
theorem test_pid_11b :
    pidSum .binary32 ⟨0#16, 32767#16, -32768, -32768, -32768⟩ ⟨-3000, 100, 7#32⟩ 3000 7#32 = -196709564416 := by
  decide +kernel

/-- V-PID-4a and V-PID-4b: truncation toward zero. -/
theorem test_trunc : f2iTrunc (3 / 2) = 1 ∧ f2iTrunc (-3 / 2) = -1 ∧ f2iTrunc (-9 / 10) = 0 := by decide +kernel

/-- V-MIX-3 and V-MIX-8. -/
theorem test_mix : mixLeft 3500 1000 = 4000 ∧ mixRight 3500 1000 = 2500 ∧ mixLeft (-32768) 32767 = -1 ∧
    mixRight (-32768) 32767 = -4000 := by decide

/-! ## Steps -/

/-- Rule R36: a second frame is dropped while one is pending. -/
theorem test_step_deliver :
    after (step (at_ idle cs0 ⟨true, 0x0000000102#40⟩ [.deliver 0x0000000202#40])) (fun s =>
      s = at_ idle cs0 ⟨true, 0x0000000102#40⟩ []) = true := by decide +kernel

/-- Rule R122: Reset restores `P` and empties the flags and the slot. -/
theorem test_step_reset :
    after (step (at_ running cs0 ⟨true, 0#40⟩ [.reset])) (fun s =>
      s.ctrl = idle && s.cs = ⟨0, 0, 0#32⟩ && s.p = cfg.resetP && !s.mbox.full && s.out = []) = true := by decide +kernel

/-- The very next step after reset runs a placed START_CAR: the phase is Running and one command is emitted. -/
theorem test_withFetchWord :
    after (step (State.reset.withFetchWord 40 0x0000000102)) (fun s => s.ctrl = running && s.out.length = 2) = true := by
  decide +kernel

/-! ## Witnesses: the hypotheses of each statement can be met -/

theorem witness_BinaryRoundingIsNearestValue :
    (|(-16777215 : Int)| < 2 ^ 24 ∧ (-149 : Int) ≤ -149) ∧ rnd32 (3 / 2) = 3 / 2 ∧ -(2 ^ 24) ≤ (2 ^ 24 : Int) ∧
    -(2 ^ 24 : Int) ≤ 2 ^ 24 ∧ (1 / 3 : ℚ) ≤ 1 / 3 := by decide +kernel

/-- 2^24 + 1 lies halfway between two binary32 values. -/
theorem witness_BinaryRoundingBreaksTiesToEven :
    rnd32 16777218 = 16777218 ∧ (16777218 : ℚ) ≠ rnd32 16777217 ∧
    |(16777218 : ℚ) - 16777217| = |rnd32 16777217 - 16777217| := by decide +kernel

theorem witness_ClampPicksBoundOrValue :
    ((-100 : ℚ) ≤ 100 ∧ (-101 : ℚ) < -100 ∧ (100 : ℚ) < 101 ∧ (-100 : ℚ) ≤ 100) ∧
    ((0 : Int) ≤ 32767 ∧ (-1 : Int) < 0 ∧ (32767 : Int) < 32768 ∧ (0 : Int) ≤ 0 ∧ (0 : Int) ≤ 32767) := by decide +kernel

theorem witness_TruncationIsTowardZero : (0 : ℚ) ≤ 1375 / 2 ∧ -(1375 / 2 : ℚ) ≤ 0 ∧ (0 : ℚ) ≤ 0 := by decide +kernel

theorem witness_DecodeReadsBackEveryEncoding :
    (Instr.tuneBase (-32768)).wellFormed = true ∧ (Instr.tuneKi 32767).wellFormed = true ∧
    (Instr.tick 0xFF#8 0xFFFFFFFF#32).wellFormed = true := by decide

theorem witness_EncodeReturnsTheDecodedWord :
    decode .frame 0x8000000302#40 = .ok (.tuneBase (-32768)) ∧
    decode .tick 0xFFFFFFFFFF#40 = .ok (.tick 0xFF#8 0xFFFFFFFF#32) := by decide

/-- Each clause of the ordered checks, at the edges of its range; both signs of the value. -/
theorem witness_DecodeFollowsItsOrderedChecks :
    (0x0000000003#40).toNat % 256 = 3 ∧
    ((0x0000000004#40).toNat % 256 ≠ 3 ∧ (0x0000000004#40).toNat % 256 ≠ 2) ∧
    ((0x0000000102#40).toNat % 256 = 2 ∧ (0x0000000102#40).toNat / 2 ^ 8 % 256 = 1) ∧
    ((0x0000000202#40).toNat % 256 = 2 ∧ (0x0000000202#40).toNat / 2 ^ 8 % 256 = 2) ∧
    ((0x0000000402#40).toNat % 256 = 2 ∧ (0x0000000402#40).toNat / 2 ^ 8 % 256 = 4) ∧
    ((0x7FFF000302#40).toNat / 2 ^ 8 % 256 = 3 ∧ (0x7FFF000302#40).toNat / 2 ^ 16 % 256 = 0 ∧
      (0x7FFF000302#40).toNat / 2 ^ 24 < 2 ^ 15) ∧
    ((0x8000010302#40).toNat / 2 ^ 16 % 256 = 1 ∧ ¬ (0x8000010302#40).toNat / 2 ^ 24 < 2 ^ 15) ∧
    (0x0000020302#40).toNat / 2 ^ 16 % 256 = 2 ∧ (0x0000030302#40).toNat / 2 ^ 16 % 256 = 3 ∧
    ((0x0000040302#40).toNat % 256 = 2 ∧ (0x0000040302#40).toNat / 2 ^ 16 % 256 = 4) ∧
    ((0x0000050302#40).toNat / 2 ^ 8 % 256 = 3 ∧ 4 < (0x0000050302#40).toNat / 2 ^ 16 % 256) := by decide

theorem witness_StartCarSetsBothEnableBits :
    (at_ running cs0 empty []).phase = .running ∧ frameByte 0xFFFFFF0102#40 0 = 0x02#8 ∧
    frameByte 0xFFFFFF0102#40 1 = 0x01#8 := by decide

theorem witness_StopCarClearsMotorsEnabledOnly :
    (at_ idle cs0 empty []).phase = .idle ∧ frameByte 0x5634120202#40 0 = 0x02#8 ∧
    frameByte 0x5634120202#40 1 = 0x02#8 := by decide

theorem witness_EchoEmitsItsFrame :
    decodeFrame 0xEFBEADDE03#40 = .ok (.echo 0xEFBEADDE#32) ∧
    (at_ running cs0 ⟨true, 0xEFBEADDE03#40⟩ []).mbox.full = true ∧
    (at_ running cs0 ⟨true, 0xEFBEADDE03#40⟩ []).mbox.data = 0xEFBEADDE03#40 := by decide

theorem cfg_wf : cfg.wf := by decide +kernel

/-- At both ends of the range. -/
theorem witness_TuneBaseStoresSignedValue :
    0x8000000302#40 &&& 0x0000FFFFFF#40 = 0x0000000302#40 ∧ (at_ idle cs0 empty []).cfg.wf ∧
    (at_ idle cs0 empty []).cfg.tuneBaseSpeed.lo ≤ -32768 ∧ (32767 : Int) ≤ (at_ idle cs0 empty []).cfg.tuneBaseSpeed.hi :=
  ⟨by decide, cfg_wf, by decide, by decide⟩

theorem witness_TuneMaxCorrectionStoresUnsignedValue :
    0xFFFB010302#40 &&& 0x0000FFFFFF#40 = 0x0000010302#40 ∧ (at_ idle cs0 empty []).cfg.wf ∧
    (at_ idle cs0 empty []).cfg.tuneMaxCorrection = .nonneg ∧ (-1 : Int) < 0 :=
  ⟨by decide, cfg_wf, by decide, by decide⟩

theorem witness_TuneGainStoresExactInteger :
    0x02EE020302#40 &&& 0x0000FFFFFF#40 = 0x0000020302#40 ∧ 0xFFFF030302#40 &&& 0x0000FFFFFF#40 = 0x0000030302#40 ∧
    0xFFFD040302#40 &&& 0x0000FFFFFF#40 = 0x0000040302#40 ∧
    (at_ running cs0 ⟨true, 0xFFFD040302#40⟩ []).cfg.wf ∧ (at_ running cs0 ⟨true, 0xFFFD040302#40⟩ []).mbox.full = true ∧
    decodeFrame (at_ running cs0 ⟨true, 0xFFFD040302#40⟩ []).mbox.data = .ok (.tuneKi (-3)) :=
  ⟨by decide, by decide, by decide, cfg_wf, by decide, by decide⟩

theorem witness_DefaultBoundsChangeOnlyNegativeMaxCorrection :
    tuneValueOk (-32768) ∧ tuneValueOk 32767 ∧ cfg.tuneBaseSpeed = .int16 ∧ cfg.tuneMaxCorrection = .nonneg ∧
    cfg.tuneKP = .int16 ∧ cfg.tuneKD = .int16 ∧ cfg.tuneKI = .int16 := by decide

/-- One frame of each kind of INVALID; the last is at the edge of the index range. -/
theorem witness_InvalidFramesAreDropped :
    invalidFrame 0x0000000104#40 ∧ invalidFrame 0x0000000000#40 ∧ invalidFrame 0x0000000402#40 ∧
    invalidFrame 0x0010050302#40 ∧ ¬ invalidFrame 0x0010040302#40 ∧
    (at_ running cs0 ⟨true, 0x0010050302#40⟩ []).mbox.full = true := by decide

theorem witness_RepeatedCommandsAreIdempotent :
    ((at_ stopped cs0 ⟨true, 0x0000000202#40⟩ []).phase = .stopped ∧
      decodeFrame (at_ stopped cs0 ⟨true, 0x0000000202#40⟩ []).mbox.data = .ok (.stopCar 0#24)) ∧
    ((at_ running cs0 ⟨true, 0x0000000102#40⟩ []).phase = .running ∧
      decodeFrame (at_ running cs0 ⟨true, 0x0000000102#40⟩ []).mbox.data = .ok (.startCar 0#24)) ∧
    ((Instr.tuneKp 750).port = .frame ∧ (∀ p, Instr.tuneKp 750 ≠ .echo p) ∧
      ∃ t, exec (.tuneKp 750) (at_ idle cs0 empty []) = .next t) :=
  ⟨by decide, by decide, rfl, fun _ h => (by cases h), _, rfl⟩

/-- A repeated TUNE: a later state, with another controller state, whose parameters are as the first TUNE left them. -/
theorem witness_RepeatedCommandsAreIdempotent_tune :
    ∃ t s : State, exec (.tuneKp 750) (at_ running cs0 empty []) = .next t ∧ s.cs ≠ t.cs ∧ s.p = t.p ∧
      s.ctrl = t.ctrl ∧ s.cfg = t.cfg ∧ s.mbox.full = true ∧ decodeFrame s.mbox.data = .ok (.tuneKp 750) :=
  ⟨_, { (at_ running cs0 empty []).tune .kP 750 with cs := ⟨3000, 30, 1010#32⟩, mbox := ⟨true, 0x02EE020302#40⟩ },
    rfl, by decide +kernel, rfl, rfl, rfl, rfl, by decide⟩

theorem witness_EstimateIsTheRoundedMean : (0x0B#7 : Mask) ≠ 0#7 := by decide

theorem witness_LostLineFollowsTheErrorSign : (-(1 / 2 ^ 149) : ℚ) < 0 ∧ (0 : ℚ) ≤ 0 := by decide +kernel

theorem witness_EstimateIsAntisymmetric : (0x01#7 : Mask) ≠ 0#7 := by decide

/-- A stalled clock, and one that stepped back. -/
theorem witness_FloorFiresExactlyOnStalledClock :
    1000#32 = cs0.lastTimestampMs ∧ 999#32 = cs0.lastTimestampMs - 1#32 := by decide

/-- The shortest and the longest step back. -/
theorem witness_BackwardClockIsNotFloored : 0 < 1 ∧ 1 < 2 ^ 32 ∧ 0 < 2 ^ 32 - 1 ∧ 2 ^ 32 - 1 < 2 ^ 32 := by decide

theorem witness_IntegralStaysInRange :
    ∃ t, step (at_ running ⟨0, -100, 1000#32⟩ empty [.tick 0x000003F201#40]) = .next t ∧
      -100 ≤ (at_ running ⟨0, -100, 1000#32⟩ empty [.tick 0x000003F201#40]).cs.integral ∧
      (at_ running ⟨0, -100, 1000#32⟩ empty [.tick 0x000003F201#40]).cs.integral ≤ 100 :=
  ⟨_, rfl, by decide +kernel, by decide +kernel⟩

theorem witness_PidIntermediatesStayFinite :
    (⟨0#16, 32767#16, -32768, -32768, 32767⟩ : Params).legal .binary32 ∧ (-100 : ℚ) ≤ 100 ∧ (100 : ℚ) ≤ 100 ∧
    (-3000 : ℚ) ≤ -3000 ∧ (-3000 : ℚ) ≤ 3000 ∧ (3000 : ℚ) ≤ 3000 := by decide +kernel

/-- At the edge of the clamp. -/
theorem witness_MixerKeepsMeanSpeedUnclamped : |(3000 : Int) + 1000| ≤ 4000 ∧ |(3000 : Int) - 1000| ≤ 4000 := by decide

theorem witness_SaturatedBaseCannotSteer : (4000 : Int) + 1000 ≤ |(-5000)| ∧ |(-1000 : Int)| ≤ 1000 := by decide

/-- The drain that completes, into each of the three phases. -/
theorem witness_TickDrainsThenRunsItsPhase :
    (∃ t, drain (at_ idle cs0 empty []) = .next t ∧ t.ctrl.carStarted = false) ∧
    (∃ t, drain (at_ running cs0 ⟨true, 0x0000000202#40⟩ []) = .next t ∧ t.ctrl = ⟨true, false⟩) ∧
    (∃ t, drain (at_ idle cs0 ⟨true, 0x0000000102#40⟩ []) = .next t ∧ t.ctrl = ⟨true, true⟩) :=
  ⟨⟨_, rfl, rfl⟩, ⟨_, rfl, rfl⟩, ⟨_, rfl, rfl⟩⟩

theorem witness_DrainExecutesThePendingFrameOnce :
    (at_ idle cs0 empty []).mbox.full = false ∧ (at_ idle cs0 ⟨true, 0x0000000102#40⟩ []).mbox.full = true ∧
    decodeFrame (at_ idle cs0 ⟨true, 0x0000000102#40⟩ []).mbox.data = .ok (.startCar 0#24) ∧
    decodeFrame (at_ idle cs0 ⟨true, 0x0000000104#40⟩ []).mbox.data = .error (.unknownOpcode 0x04#8) ∧
    ∃ t, drain (at_ idle cs0 empty []) = .next t :=
  ⟨rfl, rfl, by decide, by decide, _, rfl⟩

theorem witness_StepRunsTheDecodedInstruction :
    (at_ idle cs0 ⟨true, 0x0000000102#40⟩ [.tick 0x000003F201#40]).inputs = .tick 0x000003F201#40 :: [] ∧
    (at_ idle cs0 ⟨true, 0x0000000102#40⟩ [.tick 0x000003F201#40]).mbox.full = true ∧
    decodeFrame (at_ idle cs0 ⟨true, 0x0000000102#40⟩ [.tick 0x000003F201#40]).mbox.data = .ok (.startCar 0#24) := by
  decide +kernel

theorem witness_PlacedWordIsRunByTheNextStep :
    decodeTableWord 40 0x0000000102 = some (.startCar 0#24) ∧ (Instr.startCar 0#24).port = .frame ∧
    decodeTableWord 40 0x000003F208 = some (.tick 0x08#8 0x000003F2#32) ∧
    (Instr.tick 0x08#8 0x000003F2#32).port = .tick := by decide

theorem witness_PhaseFollowsItsTransitionTable :
    (at_ idle cs0 empty [.tick 0#40]).inputs = .tick 0#40 :: [] ∧ (at_ idle cs0 empty [.tick 0#40]).mbox.full = false ∧
    (at_ stopped cs0 ⟨true, 0x0000000102#40⟩ [.tick 0#40]).mbox.full = true ∧
    decodeFrame 0x0000000102#40 = .ok (.startCar 0#24) ∧
    decodeFrame 0x0000000104#40 = .error (.unknownOpcode 0x04#8) ∧
    (at_ idle cs0 empty [.deliver 0#40]).inputs = .deliver 0#40 :: [] ∧
    (at_ running cs0 empty [.reset]).inputs = .reset :: [] := by decide +kernel

theorem witness_CarStartedIsNeverCleared :
    ∃ t, step (at_ running cs0 empty [.reset]) = .next t ∧ (at_ running cs0 empty [.reset]).ctrl.carStarted = true ∧
      t.ctrl.carStarted = false := ⟨_, rfl, rfl, rfl⟩

theorem witness_ControllerStateIsFrozenOutsideRunning :
    (∃ t, exec (.tick 0x01#8 1010#32) (at_ running cs0 empty []) = .next t ∧ t.cs ≠ cs0) ∧
    (∃ t, step (at_ running cs0 empty [.tick 0x000003F201#40]) = .next t ∧ t.cs ≠ cs0) :=
  ⟨⟨_, rfl, by decide +kernel⟩, ⟨_, rfl, by decide +kernel⟩⟩

theorem witness_ParametersHaveOneWriter :
    (Instr.tuneKi 3).port = .frame ∧ (∃ t, exec (.tuneKi 3) (at_ running cs0 empty []) = .next t) ∧
    (∃ t u, drain (at_ running cs0 ⟨true, 0x0003040302#40⟩ []) = .next t ∧
      exec (.tick 0x01#8 1010#32) (at_ running cs0 ⟨true, 0x0003040302#40⟩ []) = .next u) ∧
    (∃ t, step (at_ running cs0 ⟨true, 0x0003040302#40⟩ [.tick 0#40]) = .next t ∧
      t.p ≠ (at_ running cs0 ⟨true, 0x0003040302#40⟩ [.tick 0#40]).p) :=
  ⟨rfl, ⟨_, rfl⟩, ⟨_, _, rfl, rfl⟩, ⟨_, rfl, by decide +kernel⟩⟩

theorem witness_TickEventsComeInOrder :
    ((at_ running cs0 ⟨true, 0xEFBEADDE03#40⟩ []).mbox.full = true ∧ frameByte 0xEFBEADDE03#40 0 = 0x03#8) ∧
    (at_ running cs0 empty []).mbox.full = false ∧
    (∃ t, exec (.tick 0#8 0#32) (at_ idle cs0 empty []) = .next t ∧ t.phase = .idle) ∧
    (∃ t, exec (.tick 0#8 0#32) (at_ stopped cs0 empty []) = .next t ∧ t.phase = .stopped) ∧
    (∃ t, exec (.tick 0#8 0#32) (at_ running cs0 empty []) = .next t ∧ t.phase = .running) :=
  ⟨by decide, rfl, ⟨_, rfl, rfl⟩, ⟨_, rfl, rfl⟩, ⟨_, rfl, rfl⟩⟩

/-- Bit 7 set is still a lost line; both signs of the stored error, zero included. -/
theorem witness_LostLineAlternates :
    (at_ running ⟨-250, 0, 1000#32⟩ empty []).phase = .running ∧
    (at_ running ⟨-250, 0, 1000#32⟩ empty []).mbox.full = false ∧ (0x80#8 : BitVec 8).setWidth 7 = 0#7 ∧
    (at_ running ⟨-250, 0, 1000#32⟩ empty []).cs.lastError < 0 ∧ 0 ≤ (at_ running cs0 empty []).cs.lastError := by
  decide +kernel

theorem witness_StoppedTicksFreezeTheController :
    (at_ stopped cs0 empty [.tick 0x000003F201#40, .tick 0#40, .reset]).phase = .stopped ∧
    (at_ stopped cs0 empty [.tick 0x000003F201#40, .tick 0#40, .reset]).mbox.full = false ∧
    (at_ stopped cs0 empty [.tick 0x000003F201#40, .tick 0#40, .reset]).inputs =
      [0x000003F201#40, 0#40].map Input.tick ++ [.reset] := by decide +kernel

theorem witness_IdleTicksDoNothing :
    (at_ idle cs0 empty [.tick 0x000003F201#40, .reset]).phase = .idle ∧
    (at_ idle cs0 empty [.tick 0x000003F201#40, .reset]).mbox.full = false ∧
    (at_ idle cs0 empty [.tick 0x000003F201#40, .reset]).inputs =
      [0x000003F201#40].map Input.tick ++ [.reset] := by decide +kernel

theorem witness_DeliverFillsOnlyAnEmptySlot :
    (at_ idle cs0 empty [.deliver 0x0000000102#40]).inputs = .deliver 0x0000000102#40 :: [] ∧
    (at_ idle cs0 empty [.deliver 0x0000000102#40]).mbox.full = false ∧
    (at_ idle cs0 ⟨true, 0#40⟩ [.deliver 0x0000000102#40]).mbox.full = true := by decide +kernel

theorem witness_NextTickExecutesTheAcceptedFrame :
    (at_ idle cs0 empty [.deliver 0x0000000102#40, .deliver 0x0000000202#40, .tick 0#40]).mbox.full = false ∧
    (at_ idle cs0 empty [.deliver 0x0000000102#40, .deliver 0x0000000202#40, .tick 0#40]).inputs =
      .deliver 0x0000000102#40 :: ([0x0000000202#40].map Input.deliver ++ .tick 0#40 :: []) := by decide +kernel

theorem witness_EmptyMailboxDataIsInvisible : (at_ idle cs0 empty [.tick 0#40]).mbox.full = false := by decide

theorem witness_ResetRestoresEveryElement :
    (at_ running cs0 ⟨true, 0#40⟩ [.reset, .tick 0#40]).inputs = .reset :: [.tick 0#40] := by decide +kernel

/-- A running state with a scheduled Tick has the invariant, and its step answers a next state. -/
theorem witness_EveryStepKeepsTheInvariant :
    Inv (at_ running cs0 empty [.tick 0x000003F201#40]) ∧
    ∃ t, step (at_ running cs0 empty [.tick 0x000003F201#40]) = .next t :=
  ⟨{ cfgLegal := cfg_wf
     paramsLegal := cfg_wf.1
     integralInRange := by decide +kernel
     lastErrorInRange := by decide +kernel
     integralIsNum := by decide +kernel
     lastErrorIsNum := by decide +kernel
     enabledImpliesStarted := fun _ => rfl
     eventsOk := fun _ h => (by cases h) }, _, rfl⟩

theorem witness_PowerUpStateMeetsTheInvariant : cfg.wf := cfg_wf

theorem witness_ParametersShowOnlyInMotorCommands :
    [Event.motorCmd 1 1 2 2, .ledMirror 3#7].map Event.hideMotor =
      [Event.motorCmd 5 5 (-6) (-6), .ledMirror 3#7].map Event.hideMotor := by decide

theorem witness_PolarityOnlyNegatesMotorCommands :
    ∃ t, step (at_ running cs0 empty [.tick 0x000003F201#40]) = .next t := ⟨_, rfl⟩

end Sys2Proof.Tests
end

/-! PROOFS. The rounding and the clamps (`spec/00_scope.md` rules R7, R8): O1, O2 and O3. -/

namespace Sys2Proof.Machine

/-! ## Round half to even is nearest, and even at a tie (rule R7) -/

theorem abs_roundEven_sub_le_abs_intCast_sub (x : ℚ) (n : Int) : |(roundEven x : ℚ) - x| ≤ |(n : ℚ) - x| := by
  rcases lt_or_ge |(n : ℚ) - x| (1 / 2) with h | h
  · rw [roundEven_unique (by rwa [abs_sub_comm])]
  · exact (abs_roundEven_sub_le x).trans h

/-- Another integer just as near means a tie, which goes to the even neighbour. -/
theorem roundEven_even_of_tie {x : ℚ} {n : Int} (hne : n ≠ roundEven x)
    (htie : |(n : ℚ) - x| = |(roundEven x : ℚ) - x|) : roundEven x % 2 = 0 := by
  have hfar : 1 / 2 ≤ |(n : ℚ) - x| := by
    by_contra hc
    exact hne (roundEven_unique (by rw [abs_sub_comm]; exact not_le.mp hc)).symm
  have hhalf : |(roundEven x : ℚ) - x| = 1 / 2 := le_antisymm (abs_roundEven_sub_le x) (htie ▸ hfar)
  have hfrac : x - ⌊x⌋ = 1 / 2 := by
    have h0 := Int.floor_le x
    have h1 := Int.lt_floor_add_one x
    obtain ⟨h, hx⟩ | ⟨h, hx⟩ := roundEven_cases x
    · rw [h, abs_sub_comm, abs_of_nonneg (by linarith)] at hhalf
      exact hhalf
    · rw [h, Int.cast_add, Int.cast_one, abs_of_nonneg (by linarith)] at hhalf
      linarith
  rw [roundEven_of_tie hfrac]
  split_ifs <;> omega

/-! ## `rnd32` against the multiples of its unit, and against the other values of the format -/

/-- The distance of `q` from a multiple of its unit, counted in units. -/
theorem abs_mul_ulp_sub (q : ℚ) (n : Int) :
    |n * pow2 (ulpExp q) - q| = |(n : ℚ) - q / pow2 (ulpExp q)| * pow2 (ulpExp q) := by
  rw [← abs_of_pos (pow2_pos (ulpExp q)), ← abs_mul, sub_mul, abs_of_pos (pow2_pos _),
    div_mul_cancel₀ _ (pow2_ne_zero _)]

theorem abs_rnd32_sub_le_abs_mul_ulp_sub (q : ℚ) (n : Int) : |rnd32 q - q| ≤ |n * pow2 (ulpExp q) - q| := by
  rw [rnd32, abs_mul_ulp_sub, abs_mul_ulp_sub]
  exact mul_le_mul_of_nonneg_right (abs_roundEven_sub_le_abs_intCast_sub _ _) (pow2_pos _).le

/-- Above the smallest unit a value has 24 significant bits: it is at least 2 ^ 23 units. -/
theorem pow2_23_ulp_le_abs {q : ℚ} (hq : q ≠ 0) (h : -149 < ulpExp q) : pow2 (23 + ulpExp q) ≤ |q| := by
  have hexp : 23 + ulpExp q = ilog2 q := by unfold ulpExp at h ⊢; omega
  rw [hexp]
  exact (ilog2_spec hq).1

/-- A value of smaller magnitude than 2 ^ 23 units of `q` is farther from `q` than the multiple ±2 ^ 23 on `q`'s side,
so farther than `rnd32 q`. -/
theorem abs_rnd32_sub_lt_of_abs_lt {q x : ℚ} (hq : pow2 (23 + ulpExp q) ≤ |q|) (hx : |x| < pow2 (23 + ulpExp q)) :
    |rnd32 q - q| < |x - q| := by
  have hedge : pow2 (23 + ulpExp q) = ((2 ^ 23 : Int) : ℚ) * pow2 (ulpExp q) := by
    rw [pow2_add, show pow2 23 = 2 ^ 23 from pow2_natCast 23]; push_cast; rfl
  obtain ⟨hx0, hx1⟩ := abs_lt.mp hx
  rcases le_total 0 q with h | h
  · rw [abs_of_nonneg h] at hq
    calc |rnd32 q - q| ≤ |pow2 (23 + ulpExp q) - q| := hedge ▸ abs_rnd32_sub_le_abs_mul_ulp_sub q (2 ^ 23)
      _ = q - pow2 (23 + ulpExp q) := by rw [abs_sub_comm, abs_of_nonneg (by linarith)]
      _ < q - x := by linarith
      _ ≤ |x - q| := by rw [abs_sub_comm]; exact le_abs_self _
  · rw [abs_of_nonpos h] at hq
    have hneg : -pow2 (23 + ulpExp q) = ((-2 ^ 23 : Int) : ℚ) * pow2 (ulpExp q) := by rw [hedge]; push_cast; ring
    calc |rnd32 q - q| ≤ |-pow2 (23 + ulpExp q) - q| := hneg ▸ abs_rnd32_sub_le_abs_mul_ulp_sub q (-2 ^ 23)
      _ = -pow2 (23 + ulpExp q) - q := abs_of_nonneg (by linarith)
      _ < x - q := by linarith
      _ ≤ |x - q| := le_abs_self _

/-- Seen from `q ≠ 0` a value of the format is a multiple of `q`'s unit or strictly farther than `rnd32 q`. -/
theorem multiple_of_ulp_or_farther {q : ℚ} (hq : q ≠ 0) {m e : Int} (hm : |m| < 2 ^ 24) (he : -149 ≤ e) :
    (∃ n : Int, m * pow2 e = n * pow2 (ulpExp q)) ∨ |rnd32 q - q| < |m * pow2 e - q| := by
  rcases le_or_gt (ulpExp q) e with hle | hlt
  · obtain ⟨k, hk⟩ := Int.eq_ofNat_of_zero_le (show 0 ≤ e - ulpExp q by omega)
    refine .inl ⟨m * 2 ^ k, ?_⟩
    rw [show e = (k : Int) + ulpExp q by omega, pow2_add, pow2_natCast]
    push_cast; ring
  · refine .inr (abs_rnd32_sub_lt_of_abs_lt (pow2_23_ulp_le_abs hq (by omega)) ?_)
    have hmq : |(m : ℚ)| < 2 ^ 24 := by exact_mod_cast hm
    calc |m * pow2 e| = |(m : ℚ)| * pow2 e := by rw [abs_mul, abs_of_pos (pow2_pos e)]
      _ < 2 ^ 24 * pow2 e := mul_lt_mul_of_pos_right hmq (pow2_pos e)
      _ = pow2 (24 + e) := by rw [pow2_add, show pow2 24 = 2 ^ 24 from pow2_natCast 24]
      _ ≤ pow2 (23 + ulpExp q) := pow2_le_pow2 (by omega)

/-- No value of the format is nearer than the result (rule R7). -/
theorem abs_rnd32_sub_le_of_significand (q : ℚ) {m e : Int} (hm : |m| < 2 ^ 24) (he : -149 ≤ e) :
    |rnd32 q - q| ≤ |m * pow2 e - q| := by
  by_cases hq : q = 0
  · rw [hq, rnd32_zero, sub_zero, abs_zero]
    exact abs_nonneg _
  · obtain ⟨n, hn⟩ | hlt := multiple_of_ulp_or_farther hq hm he
    · rw [hn]; exact abs_rnd32_sub_le_abs_mul_ulp_sub q n
    · exact hlt.le

theorem abs_rnd32_sub_le_of_isNum (q : ℚ) {x : ℚ} (hx : rnd32 x = x) : |rnd32 q - q| ≤ |x - q| := by
  obtain ⟨m, e, hm, he, h⟩ := rnd32_form x
  rw [← hx, h]
  exact abs_rnd32_sub_le_of_significand q hm he

/-- Settles O1, from the form of a result, the fixed values and the distance to every other value of the format. -/
theorem binaryRoundingIsNearestValue : Obligations.BinaryRoundingIsNearestValue := by
  unfold Obligations.BinaryRoundingIsNearestValue
  simp only [← pow2_eq_zpow]
  exact ⟨rnd32_form, fun _ _ => rnd32_of_significand, fun q _ _ => abs_rnd32_sub_le_of_significand q,
    fun q => ⟨rnd32_idem q, fun _ => abs_rnd32_sub_le_of_isNum q,
      fun _ hlo hhi => rnd32_intCast (abs_le.mpr ⟨hlo, hhi⟩), fun _ => rnd32_mono⟩⟩

/-- Settles O2: a value just as near is a multiple of the unit, hence a tie of significands, which goes to even. -/
theorem binaryRoundingBreaksTiesToEven : Obligations.BinaryRoundingBreaksTiesToEven := by
  intro q x hx hne htie
  refine ⟨roundEven (q / pow2 (ulpExp q)), ?_, rfl⟩
  have hq : q ≠ 0 := by
    rintro rfl
    exact hne (by simpa using htie)
  obtain ⟨m, e, hm, he, h⟩ := rnd32_form x
  rw [hx] at h
  subst h
  obtain ⟨n, hn⟩ | hlt := multiple_of_ulp_or_farther hq hm he
  · rw [hn] at hne htie
    rw [rnd32, abs_mul_ulp_sub, abs_mul_ulp_sub] at htie
    refine roundEven_even_of_tie (n := n) ?_ (mul_right_cancel₀ (pow2_ne_zero _) htie)
    rintro rfl
    exact hne rfl
  · exact absurd htie hlt.ne'

/-! ## The clamps (rule R8) -/

theorem clamp_of_lt {v lo hi : ℚ} (h : v < lo) : clamp v lo hi = lo := by
  rw [clamp_eq, if_pos h]

theorem clamp_of_gt {v lo hi : ℚ} (hle : lo ≤ hi) (h : hi < v) : clamp v lo hi = hi := by
  rw [clamp_eq, if_neg (not_lt.mpr (hle.trans h.le)), if_pos h]

theorem clampi_of_lt {v lo hi : Int} (h : v < lo) : clampi v lo hi = lo := if_pos h

theorem clampi_of_gt {v lo hi : Int} (hle : lo ≤ hi) (h : hi < v) : clampi v lo hi = hi :=
  (if_neg (not_lt.mpr (hle.trans h.le))).trans (if_pos h)

theorem clampi_eq_max_min {v lo hi : Int} (hle : lo ≤ hi) : clampi v lo hi = max lo (min hi v) := by
  unfold clampi; split_ifs <;> omega

/-- Settles O3, clause by clause. -/
theorem clampPicksBoundOrValue : Obligations.ClampPicksBoundOrValue :=
  ⟨fun _ _ _ hle => ⟨clamp_of_lt, clamp_of_gt hle, fun h0 h1 => clamp_of_mem ⟨h0, h1⟩⟩,
   fun _ _ _ hle => ⟨clampi_of_lt, clampi_of_gt hle, fun h0 h1 => clampi_of_mem ⟨h0, h1⟩⟩⟩

end Sys2Proof.Machine

/-! PROOFS. The ranges of the correction and of the wheel speeds (rules R70, R77): O31 and O34. -/

namespace Sys2Proof.Machine

/-- `i2f` of a natural number within 24 bits is the number itself. -/
theorem i2f_natCast (f : NumFormat) {n : Nat} (h : n ≤ 2 ^ 24) : i2f f n = n := by
  simpa using i2f_eq f (n := n) (by rw [Nat.abs_cast]; exact_mod_cast h)

/-- `mc = i2f(P[1])` is `P[1]` itself: 16 bits fit in a significand. -/
theorem i2f_toNat (f : NumFormat) (b : BitVec 16) : i2f f b.toNat = b.toNat :=
  i2f_natCast f (by omega)

theorem abs_limitCorrection_le (f : NumFormat) (b : BitVec 16) (sum : ℚ) : |limitCorrection f b sum| ≤ b.toNat := by
  rw [limitCorrection, i2f_toNat]
  exact abs_le.mpr (clamp_mem (neg_le_self (Nat.cast_nonneg _)))

/-- Settles O31: the sum is clamped to plus or minus maxCorrection, and truncation does not increase a magnitude. -/
theorem correctionIsBoundedByMaxCorrection : Obligations.CorrectionIsBoundedByMaxCorrection := by
  intro f p cs err now
  have h : |(pidCorrection f p cs err now : ℚ)| ≤ p.maxCorrection.toNat :=
    (abs_f2iTrunc_le _).trans (abs_limitCorrection_le f _ _)
  exact abs_le.mp (by exact_mod_cast h)

theorem clampSpeed_eq (n : Int) : clampSpeed n = max (-4000) (min 4000 n) := clampi_eq_max_min (by decide)

theorem speedOk_clampSpeed (n : Int) : speedOk (clampSpeed n) := clampi_mem (by decide)

/-- Settles O34: each side is one clamp of a mathematical-integer sum. -/
theorem mixerClampsEachSide : Obligations.MixerClampsEachSide := fun _ _ =>
  ⟨clampSpeed_eq _, clampSpeed_eq _, speedOk_clampSpeed _, speedOk_clampSpeed _⟩

end Sys2Proof.Machine

/-! PROOFS. One step and the instruction it runs (rules R9, R33, R91): O40. -/

namespace Sys2Proof.Machine

/-- A scheduled T-WORD is decoded and run. -/
theorem step_eq_exec_decodeTick {s : State} {T : Frame} {rest : List Input} (h : s.inputs = .tick T :: rest) :
    step s = exec (decodeTick T) (s.withInputs rest) := by
  rw [step_of_tick h, decodeTick, exec_tick]

/-- A pending frame that decodes is run with the flag already cleared. -/
theorem drain_eq_exec {s : State} {i : Instr} (hfull : s.mbox.full = true) (hi : decodeFrame s.mbox.data = .ok i) :
    drain s = exec i s.clearFull :=
  (drain_of_full hfull).trans (execFrame_eq_exec hi _)

/-- Settles O40: the drain runs the pending frame and always completes, then the phase arm goes on. -/
theorem stepRunsTheDecodedInstruction : Obligations.StepRunsTheDecodedInstruction := by
  intro s T rest h
  refine ⟨step_eq_exec_decodeTick h, fun i hfull hi => ?_⟩
  obtain ⟨t, ht⟩ := drain_total (s.withInputs rest)
  refine ⟨t, (drain_eq_exec (s := s.withInputs rest) hfull hi).symm.trans ht, ?_⟩
  rw [step_of_tick h, ht, thenRun_next]

end Sys2Proof.Machine

/-! PROOFS. The invariant of the block (rule R12): O56 and O57. Each operation of a step has one lemma that it keeps the
invariant, and the step is their composition. -/

namespace Sys2Proof.Machine

/-! ## The invariant: the state the block powers up in, and every operation of a step -/

/-- The invariant speaks of neither the schedule nor the mailbox nor the count of free values. -/
theorem Inv.withInputs {s : State} (h : Inv s) (l : List Input) : Inv (s.withInputs l) := { h with }

theorem Inv.clearFull {s : State} (h : Inv s) : Inv s.clearFull := { h with }

theorem Inv.fillMailbox {s : State} (h : Inv s) (F : Frame) : Inv (s.fillMailbox F) := { h with }

theorem Inv.startMotors {s : State} (h : Inv s) : Inv s.startMotors :=
  { h with enabledImpliesStarted := fun _ => rfl }

theorem Inv.stopMotors {s : State} (h : Inv s) : Inv s.stopMotors :=
  { h with enabledImpliesStarted := fun hm => Bool.noConfusion hm }

theorem Inv.emit {s : State} (h : Inv s) {e : Event} (he : e.ok = true) : Inv (s.emit e) :=
  { h with
    eventsOk := by
      intro x hx
      rw [State.emit_out, List.mem_append, List.mem_singleton] at hx
      obtain hx | rfl := hx
      · exact h.eventsOk x hx
      · exact he }

theorem Inv.deliver {s : State} (h : Inv s) (F : Frame) : Inv (deliver F s) := by
  cases hf : s.mbox.full
  · rw [deliver_of_empty F hf]; exact h.fillMailbox F
  · rw [deliver_of_full F hf]; exact h

/-- A legal configuration's reset values meet the invariant in every state that holds them (rule R122, decisions D6,
D8). -/
theorem inv_of_reset_values {s : State} (hcfg : s.cfg.wf) (hp : s.p = s.cfg.resetP)
    (hctrl : s.ctrl = Ctrl.reset) (hcs : s.cs = ControllerState.reset) (hout : ∀ e ∈ s.out, e.ok = true) :
    Inv s where
  cfgLegal := hcfg
  paramsLegal := hp ▸ hcfg.1
  integralInRange := by simp [hcs, ControllerState.reset]
  lastErrorInRange := by simp [hcs, ControllerState.reset]
  integralIsNum := by simp [hcs, ControllerState.reset, isNum]
  lastErrorIsNum := by simp [hcs, ControllerState.reset, isNum]
  enabledImpliesStarted := by simp [hctrl, Ctrl.reset]
  eventsOk := hout

theorem Inv.resetStep {s : State} (h : Inv s) : Inv (resetStep s) :=
  inv_of_reset_values h.cfgLegal rfl rfl rfl h.eventsOk

theorem inv_resetWith {c : Config} (h : c.wf) : Inv (State.resetWith c) :=
  inv_of_reset_values h rfl rfl rfl (fun _ he => absurd he List.not_mem_nil)

/-! ## TUNE keeps the parameters legal (rules R95-R100) -/

theorem bounds_wf {c : Config} (h : c.wf) (i : Param) : (c.bounds i).wf := by
  obtain ⟨-, hBase, ⟨hMaxc, -⟩, hKP, hKD, hKI, -⟩ := h
  cases i <;> assumption

/-- The clamped TUNE value is a signed 16-bit integer, whatever the frame carries. -/
theorem tuneValueOk_tuneOperand {c : Config} (h : c.wf) (i : Param) (v : Int) : tuneValueOk (tuneOperand c i v) := by
  obtain ⟨hlo, hle, hhi⟩ := bounds_wf h i
  have hmem : (c.bounds i).lo ≤ tuneOperand c i v ∧ tuneOperand c i v ≤ (c.bounds i).hi := clampi_mem hle
  exact ⟨hlo.trans hmem.1, hmem.2.trans hhi⟩

theorem tuneOperand_maxCorrection_nonneg {c : Config} (h : c.wf) (v : Int) :
    0 ≤ tuneOperand c .maxCorrection v := by
  obtain ⟨-, -, ⟨⟨-, hle, -⟩, hlo⟩, -⟩ := h
  exact hlo.trans (clampi_mem hle).1

theorem i2f_of_tuneValueOk (f : NumFormat) {w : Int} (h : tuneValueOk w) : i2f f w = w :=
  i2f_eq f (by obtain ⟨h0, h1⟩ := h; rw [abs_le]; constructor <;> omega)

/-- A stored TUNE value is a gain of rule R73's premise. -/
theorem gainLegal_i2f (f : NumFormat) {w : Int} (h : tuneValueOk w) : gainLegal f (i2f f w) := by
  refine ⟨?_, ?_, isNum_rnd f _⟩ <;> rw [i2f_of_tuneValueOk f h]
  · exact_mod_cast h.1
  · exact_mod_cast h.2.trans (by norm_num)

theorem toNat_ofInt_le_of_nonneg {w : Int} (h0 : 0 ≤ w) (h : w ≤ 32767) : (BitVec.ofInt 16 w).toNat ≤ 32767 := by
  rw [BitVec.toNat_ofInt]; omega

theorem legal_store {c : Config} {p : Params} (hc : c.wf) (hp : p.legal c.num) (i : Param) (v : Int) :
    (Params.store c.num p i (tuneOperand c i v)).legal c.num := by
  have hw := tuneValueOk_tuneOperand hc i v
  obtain ⟨hmaxc, hkP, hkD, hkI⟩ := hp
  cases i with
  | baseSpeed => exact ⟨hmaxc, hkP, hkD, hkI⟩
  | maxCorrection =>
    exact ⟨toNat_ofInt_le_of_nonneg (tuneOperand_maxCorrection_nonneg hc v) hw.2, hkP, hkD, hkI⟩
  | kP => exact ⟨hmaxc, gainLegal_i2f _ hw, hkD, hkI⟩
  | kD => exact ⟨hmaxc, hkP, gainLegal_i2f _ hw, hkI⟩
  | kI => exact ⟨hmaxc, hkP, hkD, gainLegal_i2f _ hw⟩

theorem Inv.tune {s : State} (h : Inv s) (i : Param) (v : Int) : Inv (s.tune i v) :=
  { h with paramsLegal := legal_store h.cfgLegal h.paramsLegal i v }

theorem Inv.drain {s t : State} (h : Inv s) (hd : drain s = .next t) : Inv t := by
  obtain ⟨-, e⟩ | ⟨-, e | e | ⟨i, v, e⟩ | ⟨G, e⟩ | e⟩ := drain_cases s <;> rw [e] at hd <;> cases hd
  · exact h
  · exact h.clearFull.startMotors
  · exact h.clearFull.stopMotors
  · exact h.clearFull.tune i v
  · exact h.clearFull.emit rfl
  · exact h.clearFull

/-! ## The Running pipeline keeps its ranges (rules R59, R66, R77) -/

theorem mem_activeSensors {m : Mask} {i : Nat} (h : i ∈ activeSensors m) : i < Config.sensorCount := by
  rw [activeSensors, List.mem_filter, List.mem_range] at h
  exact h.1

theorem weight_mem {i : Nat} (h : i < Config.sensorCount) : -3000 ≤ weight i ∧ weight i ≤ 3000 := by
  unfold Config.sensorCount at h
  unfold weight Config.centerIndex Config.weightStep
  omega

/-- Every weight lies in [-3000, 3000], hence the sum of `n` of them in [-3000 n, 3000 n]. -/
theorem weightSum_mem (m : Mask) :
    -3000 * (activeCount m : Int) ≤ weightSum m ∧ weightSum m ≤ 3000 * (activeCount m : Int) := by
  have hweight : ∀ w ∈ (activeSensors m).map weight, -3000 ≤ w ∧ w ≤ 3000 := by
    intro w hw
    obtain ⟨i, hi, rfl⟩ := List.mem_map.mp hw
    exact weight_mem (mem_activeSensors hi)
  have hlow := List.card_nsmul_le_sum _ _ fun w hw => (hweight w hw).1
  have hhigh := List.sum_le_card_nsmul _ _ fun w hw => (hweight w hw).2
  rw [List.length_map, nsmul_eq_mul] at hlow hhigh
  unfold weightSum activeCount
  constructor <;> linarith

theorem activeCount_le (m : Mask) : activeCount m ≤ 7 := by
  have h := List.length_filter_le (fun i => m.getLsbD i) (List.range Config.sensorCount)
  rwa [List.length_range] at h

theorem lostLine_mem (le : ℚ) : -3000 ≤ lostLine le ∧ lostLine le ≤ 3000 := by
  unfold lostLine Config.posMax
  split <;> norm_num

/-- Rounding keeps a range whose bounds are values of the format: here the range of a position. -/
theorem rnd_mem_positionRange (f : NumFormat) {q : ℚ} (h : -3000 ≤ q ∧ q ≤ 3000) :
    -3000 ≤ rnd f q ∧ rnd f q ≤ 3000 := by
  have hlow := intCast_le_rnd f (n := -3000) (q := q) (by norm_num) (by exact_mod_cast h.1)
  have hhigh := rnd_le_intCast f (n := 3000) (q := q) (by norm_num) (by exact_mod_cast h.2)
  exact ⟨by exact_mod_cast hlow, by exact_mod_cast hhigh⟩

/-- With a sensor active EST is the mean of the weights, rounded once: its numerator and its denominator are exact
(rule R56). -/
theorem est_of_active (f : NumFormat) {m : Mask} (le : ℚ) (h : 0 < activeCount m) :
    est f m le = rnd f (weightSum m / activeCount m) := by
  have hcount := activeCount_le m
  obtain ⟨hlow, hhigh⟩ := weightSum_mem m
  rw [est, if_pos h, fdiv, i2f_natCast f (by omega), i2f_eq f (abs_le.mpr (by constructor <;> omega))]

/-- EST lies in [-3000, 3000] for every mask and stored error, whatever the rounding (rule R59). -/
theorem est_mem (f : NumFormat) (m : Mask) (le : ℚ) : -3000 ≤ est f m le ∧ est f m le ≤ 3000 := by
  rcases Nat.eq_zero_or_pos (activeCount m) with h | h
  · rw [est, if_neg (by omega)]
    exact lostLine_mem le
  · have hpos : (0 : ℚ) < activeCount m := by exact_mod_cast h
    obtain ⟨hlow, hhigh⟩ := weightSum_mem m
    rw [est_of_active f le h]
    refine rnd_mem_positionRange f ⟨(le_div_iff₀ hpos).mpr ?_, (div_le_iff₀ hpos).mpr ?_⟩
    · exact_mod_cast hlow
    · exact_mod_cast hhigh

/-- The error of a position in range is in range (rules R21, R62). -/
theorem errorOf_mem (f : NumFormat) {pos : ℚ} (h : -3000 ≤ pos ∧ pos ≤ 3000) :
    -3000 ≤ errorOf f pos ∧ errorOf f pos ≤ 3000 :=
  rnd_mem_positionRange f ⟨by linarith, by linarith⟩

/-- The integral of an invocation lies in [-100, 100] (rule R66). -/
theorem pidIntegral_mem (f : NumFormat) (cs : ControllerState) (err : ℚ) (now : Millis) :
    -100 ≤ pidIntegral f cs err now ∧ pidIntegral f cs err now ≤ 100 :=
  clamp_mem (by norm_num [Config.integralMax])

theorem isNum_pidIntegral (f : NumFormat) (cs : ControllerState) (err : ℚ) (now : Millis) :
    isNum f (pidIntegral f cs err now) := by
  have hmax : isNum f Config.integralMax := by
    simpa [Config.integralMax] using rnd_intCast f (n := 100) (by norm_num)
  exact isNum_clamp (isNum_rnd f _) (by rw [isNum, rnd_neg, hmax]) hmax

theorem speedOk_applyPolarity (pol : Polarity) {v : Int} (h : speedOk v) : speedOk (applyPolarity pol v) := by
  cases pol with
  | plus => exact h
  | minus => exact ⟨neg_le_neg h.2, neg_le.mp h.1⟩

theorem ok_motorEvent (pol : Polarity) {l r : Int} (hl : speedOk l) (hr : speedOk r) :
    (motorEvent pol l r).ok = true :=
  decide_eq_true ⟨rfl, rfl, speedOk_applyPolarity pol hl, speedOk_applyPolarity pol hr⟩

theorem ok_tickMotor (s : State) (m : Mask) (now : Millis) : (tickMotor s m now).ok = true :=
  ok_motorEvent _ (speedOk_clampSpeed _) (speedOk_clampSpeed _)

/-- The write of `CS` by an invocation of the PID on the error of a Tick. -/
theorem Inv.pidState {s : State} (h : Inv s) (m : Mask) (now : Millis) :
    Inv { s with cs := pidState s.cfg.num s.cs (tickError s m) now } :=
  { h with
    integralInRange := pidIntegral_mem _ _ _ _
    lastErrorInRange := errorOf_mem _ (est_mem _ _ _)
    integralIsNum := isNum_pidIntegral _ _ _ _
    lastErrorIsNum := isNum_rnd _ _ }

theorem Inv.runPipeline {s : State} (h : Inv s) (m : Mask) (now : Millis) : Inv (runPipeline s m now) :=
  ((h.pidState m now).emit (ok_tickMotor s m now)).emit rfl

theorem Inv.phaseArm {s t : State} {sb : BitVec 8} {now : Millis} (h : Inv s) (ha : phaseArm sb now s = .next t) :
    Inv t := by
  obtain ⟨-, e⟩ | ⟨-, e⟩ | ⟨-, e⟩ := phaseArm_cases sb now s <;> rw [e] at ha <;> cases ha
  · exact h
  · exact h.runPipeline _ _
  · exact h.emit rfl

/-! ## The obligations about the invariant -/

/-- Settles O56, by the case of the step's input: each operation of the step keeps the invariant. -/
theorem everyStepKeepsTheInvariant : Obligations.EveryStepKeepsTheInvariant := by
  intro s t h hstep
  obtain ⟨-, rfl⟩ | ⟨F, rest, -, rfl⟩ | ⟨rest, -, rfl⟩ | ⟨T, rest, u, -, hdrain, harm⟩ := step_cases hstep
  · exact h
  · exact (h.withInputs rest).deliver F
  · exact (h.withInputs rest).resetStep
  · exact ((h.withInputs rest).drain hdrain).phaseArm harm

/-- A gain brought into the constraint of rule R123 meets it. -/
theorem gainLegal_legalGain (k : ℚ) : gainLegal .binary32 (Config.legalGain k) := by
  have hbound : isNum .binary32 32768 := by simpa using rnd_intCast .binary32 (n := 32768) (by norm_num)
  obtain ⟨hlow, hhigh⟩ : -32768 ≤ Config.legalGain k ∧ Config.legalGain k ≤ 32768 := clamp_mem (by norm_num)
  exact ⟨hlow, hhigh, isNum_clamp (isNum_rnd .binary32 k) (by rw [isNum, rnd_neg, hbound]) hbound⟩

/-- The configuration of the machine after reset is legal, whatever the values the spec leaves free are (rules R95, R123, R136). -/
theorem hardware_wf : Config.hardware.wf := by
  have hmaxc : (Config.openMaxCorrection.zeroExtend 16).toNat ≤ 32767 := by
    rw [BitVec.toNat_setWidth]; omega
  have hperiod : 10 + Config.openTickPeriod.val ≤ 50 := by omega
  exact ⟨⟨hmaxc, gainLegal_legalGain _, gainLegal_legalGain _, gainLegal_legalGain _⟩,
    by decide, by decide, by decide, by decide, by decide, Nat.le_add_right _ _, hperiod⟩

/-- Settles O57: the reset values meet the invariant under every legal configuration, and the model's own is legal. -/
theorem powerUpStateMeetsTheInvariant : Obligations.PowerUpStateMeetsTheInvariant :=
  ⟨fun _ h => inv_resetWith h, inv_resetWith hardware_wf⟩

end Sys2Proof.Machine

/-! PROOFS. The state (`spec/10_state.md` rules R18-R27): O43, O44, O52, O54 and O58. -/

namespace Sys2Proof.Machine

/-! ## What Deliver leaves alone, and which write a frame makes (rules R36, R91-R101) -/

@[simp] theorem deliver_ctrl (F : Frame) (s : State) : (deliver F s).ctrl = s.ctrl := by
  cases h : s.mbox.full
  · rw [deliver_of_empty F h, State.fillMailbox_ctrl]
  · rw [deliver_of_full F h]

@[simp] theorem deliver_cs (F : Frame) (s : State) : (deliver F s).cs = s.cs := by
  cases h : s.mbox.full
  · rw [deliver_of_empty F h, State.fillMailbox_cs]
  · rw [deliver_of_full F h]

/-- The writes a frame can make (rules R92-R101). A frame chooses one of them whatever the state is, so two runs on the
same frame make the same write. -/
inductive CommandWrite : (State → State) → Prop where
  | start : CommandWrite State.startMotors
  | stop : CommandWrite State.stopMotors
  | tune (i : Param) (v : Int) : CommandWrite (·.tune i v)
  | echo (G : Frame) : CommandWrite (·.emit (.echo G))
  | drop : CommandWrite id

theorem exec_commandWrite {i : Instr} (h : i.port = .frame) :
    ∃ f, CommandWrite f ∧ ∀ s, exec i s = .next (f s) := by
  cases i with
  | startCar _ => exact ⟨_, .start, fun _ => rfl⟩
  | stopCar _ => exact ⟨_, .stop, fun _ => rfl⟩
  | tuneBase v => exact ⟨_, .tune .baseSpeed v, fun _ => rfl⟩
  | tuneMaxc v => exact ⟨_, .tune .maxCorrection v, fun _ => rfl⟩
  | tuneKp v => exact ⟨_, .tune .kP v, fun _ => rfl⟩
  | tuneKd v => exact ⟨_, .tune .kD v, fun _ => rfl⟩
  | tuneKi v => exact ⟨_, .tune .kI v, fun _ => rfl⟩
  | echo p => exact ⟨_, .echo (encode (.echo p)), fun _ => rfl⟩
  | rsvd0 _ => exact ⟨_, .drop, fun _ => rfl⟩
  | cm0Local _ => exact ⟨_, .drop, fun _ => rfl⟩
  | tick _ _ => cases h

theorem port_of_decodeFrame {F : Frame} {i : Instr} (h : decodeFrame F = .ok i) : i.port = .frame := by
  cases i with
  | tick sb now => exact absurd h (decodeFrame_ne_tick F sb now)
  | _ => rfl

theorem execFrame_commandWrite (F : Frame) : ∃ f, CommandWrite f ∧ ∀ s, execFrame F s = .next (f s) := by
  cases h : decodeFrame F with
  | error e => exact ⟨_, .drop, execFrame_of_error h⟩
  | ok i =>
    obtain ⟨f, hf, hexec⟩ := exec_commandWrite (port_of_decodeFrame h)
    exact ⟨f, hf, fun s => (execFrame_eq_exec h s).trans (hexec s)⟩

theorem CommandWrite.cs_eq {f : State → State} (hf : CommandWrite f) (s : State) : (f s).cs = s.cs := by
  cases hf <;> rfl

/-! ## The latch (rule R19) -/

theorem drain_keeps_carStarted {s t : State} (h : drain s = .next t) (hs : s.ctrl.carStarted = true) :
    t.ctrl.carStarted = true := by
  obtain ⟨-, e⟩ | ⟨-, e | e | ⟨i, v, e⟩ | ⟨G, e⟩ | e⟩ := drain_cases s <;> rw [e] at h <;> cases h
  · exact hs
  · rfl
  · exact hs
  · exact hs
  · exact hs
  · exact hs

/-- Settles O43, by the case of the step's input: the drain keeps the latch, and no other input but Reset writes it. -/
theorem carStartedIsNeverCleared : Obligations.CarStartedIsNeverCleared := by
  intro s t hstep hs ht
  obtain ⟨-, rfl⟩ | ⟨F, rest, -, rfl⟩ | ⟨rest, hin, -⟩ | ⟨T, rest, u, -, hdrain, harm⟩ := step_cases hstep
  · simp [hs] at ht
  · simp [hs] at ht
  · exact ⟨rest, hin⟩
  · obtain ⟨-, hctrl, -⟩ := phaseArm_frame harm
    have hu : u.ctrl.carStarted = true := drain_keeps_carStarted hdrain hs
    simp [hctrl, hu] at ht

/-! ## The controller state (rules R24, R90) -/

theorem phaseArm_running_of_cs_ne {sb : BitVec 8} {now : Millis} {s t : State} (h : phaseArm sb now s = .next t)
    (hcs : t.cs ≠ s.cs) : t.phase = .running := by
  obtain ⟨-, e⟩ | ⟨hrun, e⟩ | ⟨-, e⟩ := phaseArm_cases sb now s <;> rw [e] at h <;> cases h
  · exact absurd rfl hcs
  · exact hrun
  · exact absurd rfl hcs

/-- The drain leaves `CS` alone, so a Tick that changes it does so in its phase arm. -/
theorem tick_running_of_cs_ne {sb : BitVec 8} {now : Millis} {s u t : State} (hdrain : drain s = .next u)
    (harm : phaseArm sb now u = .next t) (hcs : t.cs ≠ s.cs) : t.phase = .running := by
  obtain ⟨hu, -⟩ := drain_frame hdrain
  exact phaseArm_running_of_cs_ne harm (hu ▸ hcs)

theorem exec_tick_running_of_cs_ne {sb : BitVec 8} {now : Millis} {s t : State}
    (h : exec (.tick sb now) s = .next t) (hcs : t.cs ≠ s.cs) : t.phase = .running := by
  obtain ⟨u, hdrain⟩ := drain_total s
  rw [exec_tick, hdrain, thenRun_next] at h
  exact tick_running_of_cs_ne hdrain h hcs

/-- Settles O44: no frame writes `CS`, and of a Tick only the Running arm does. -/
theorem controllerStateIsFrozenOutsideRunning : Obligations.ControllerStateIsFrozenOutsideRunning := by
  refine ⟨fun i s t hexec hcs => ?_, fun s t hstep hcs => ?_⟩
  · cases hport : i.port with
    | frame =>
      obtain ⟨f, hf, hf_exec⟩ := exec_commandWrite hport
      rw [hf_exec] at hexec
      cases hexec
      exact absurd (hf.cs_eq s) hcs
    | tick =>
      cases i with
      | tick sb now => exact ⟨rfl, exec_tick_running_of_cs_ne hexec hcs⟩
      | _ => cases hport
  · obtain ⟨-, rfl⟩ | ⟨F, rest, -, rfl⟩ | ⟨rest, hin, -⟩ | ⟨T, rest, u, hin, hdrain, harm⟩ := step_cases hstep
    · exact absurd rfl hcs
    · exact absurd (deliver_cs F _) hcs
    · exact .inr ⟨rest, hin⟩
    · exact .inl ⟨T, rest, hin, tick_running_of_cs_ne hdrain harm hcs⟩

/-! ## The empty mailbox (rule R25) -/

/-- The phase arm neither reads nor writes the mailbox. -/
theorem phaseArm_with_mbox {sb : BitVec 8} {now : Millis} {s t : State} (b : Mailbox)
    (h : phaseArm sb now s = .next t) : phaseArm sb now { s with mbox := b } = .next { t with mbox := b } := by
  obtain ⟨hp, e⟩ | ⟨hp, e⟩ | ⟨hp, e⟩ := phaseArm_cases sb now s <;> rw [e] at h <;> cases h
  · exact phaseArm_of_idle sb now hp
  · exact phaseArm_of_running sb now hp
  · exact phaseArm_of_stopped sb now hp

/-- A Tick with nothing pending is its phase arm (rule R37). -/
theorem step_of_tick_of_empty {s : State} {T : Frame} {rest : List Input} (hin : s.inputs = .tick T :: rest)
    (hfull : s.mbox.full = false) :
    step s = phaseArm (T.extractLsb' 0 8) (T.extractLsb' 8 32) (s.withInputs rest) := by
  rw [step_of_tick hin, drain_of_empty (s := s.withInputs rest) hfull, thenRun_next]

/-- Settles O52, by the case of the step's input: Deliver and Reset overwrite the data; a Tick drains nothing, and its
phase arm does not read the mailbox. -/
theorem emptyMailboxDataIsInvisible : Obligations.EmptyMailboxDataIsInvisible := by
  intro s d hfull
  obtain ⟨l, hin⟩ : ∃ l, s.inputs = l := ⟨_, rfl⟩
  rcases l with _ | ⟨F | T | _, rest⟩
  · exact ⟨s, _, step_of_nil hin, step_of_nil hin, .inr ⟨hfull, rfl⟩⟩
  · refine ⟨_, _, step_of_deliver hin, step_of_deliver hin, .inl ?_⟩
    rw [deliver_of_empty F (s := s.withInputs rest) hfull, deliver_of_empty F rfl]
    rfl
  · obtain ⟨t, ht⟩ := phaseArm_total (T.extractLsb' 0 8) (T.extractLsb' 8 32) (s.withInputs rest)
    obtain ⟨-, -, hmbox, -⟩ := phaseArm_frame ht
    refine ⟨t, _, (step_of_tick_of_empty hin hfull).trans ht, ?_, .inr ⟨hmbox ▸ hfull, rfl⟩⟩
    rw [step_of_tick_of_empty (s := { s with mbox := ⟨false, d⟩ }) hin rfl]
    exact phaseArm_with_mbox ⟨false, d⟩ ht
  · exact ⟨_, _, step_of_reset hin, step_of_reset hin, .inl rfl⟩

/-! ## The state right after power-up (rules R27, R122, R123) -/

/-- Settles O54: the values are those of `State.resetWith`, and the model's own configuration is legal. -/
theorem powerUpStateIsIdleAndEmpty : Obligations.PowerUpStateIsIdleAndEmpty :=
  ⟨fun _ => ⟨rfl, rfl, rfl, rfl, rfl, rfl⟩, Config.hardware, rfl, hardware_wf⟩

/-! ## What the parameters can be observed by (rule R18)

The two runs of O58 are related by `SameButMotors`. Each operation of a step keeps the relation, and the step is their
composition. -/

theorem hideMotor_tickMotor (s : State) (m : Mask) (now : Millis) :
    (tickMotor s m now).hideMotor = .motorCmd 0 0 0 0 := rfl

/-- `u` is `s` but for `P` and the payloads of the motor commands emitted so far. -/
def SameButMotors (s u : State) : Prop :=
  ∃ (q : Params) (o : List Event), u = { s with p := q, out := o } ∧
    o.map Event.hideMotor = s.out.map Event.hideMotor

namespace SameButMotors

variable {s u : State}

theorem inputs_eq (h : SameButMotors s u) : u.inputs = s.inputs := by
  obtain ⟨q, o, rfl, -⟩ := h; rfl

theorem mbox_eq (h : SameButMotors s u) : u.mbox = s.mbox := by
  obtain ⟨q, o, rfl, -⟩ := h; rfl

theorem phase_eq (h : SameButMotors s u) : u.phase = s.phase := by
  obtain ⟨q, o, rfl, -⟩ := h; rfl

theorem withInputs (h : SameButMotors s u) (l : List Input) : SameButMotors (s.withInputs l) (u.withInputs l) := by
  obtain ⟨q, o, rfl, ho⟩ := h
  exact ⟨q, o, rfl, ho⟩

theorem clearFull (h : SameButMotors s u) : SameButMotors s.clearFull u.clearFull := by
  obtain ⟨q, o, rfl, ho⟩ := h
  exact ⟨q, o, rfl, ho⟩

theorem resetStep (h : SameButMotors s u) : SameButMotors (resetStep s) (resetStep u) := by
  obtain ⟨q, o, rfl, ho⟩ := h
  exact ⟨s.cfg.resetP, o, rfl, ho⟩

theorem emit (h : SameButMotors s u) {d e : Event} (hde : e.hideMotor = d.hideMotor) :
    SameButMotors (s.emit d) (u.emit e) := by
  obtain ⟨q, o, rfl, ho⟩ := h
  exact ⟨q, o ++ [e], rfl, by simp [ho, hde]⟩

theorem deliver (h : SameButMotors s u) (F : Frame) : SameButMotors (deliver F s) (deliver F u) := by
  cases hfull : s.mbox.full
  · rw [deliver_of_empty F hfull, deliver_of_empty F (h.mbox_eq ▸ hfull)]
    obtain ⟨q, o, rfl, ho⟩ := h
    exact ⟨q, o, rfl, ho⟩
  · rw [deliver_of_full F hfull, deliver_of_full F (h.mbox_eq ▸ hfull)]
    exact h

theorem commandWrite (h : SameButMotors s u) {f : State → State} (hf : CommandWrite f) :
    SameButMotors (f s) (f u) := by
  cases hf with
  | echo G => exact h.emit rfl
  | _ =>
    obtain ⟨q, o, rfl, ho⟩ := h
    exact ⟨_, o, rfl, ho⟩

/-- The PID's write of `CS` reads no parameter: `P` enters the correction alone. -/
theorem runPipeline (h : SameButMotors s u) (m : Mask) (now : Millis) :
    SameButMotors (runPipeline s m now) (runPipeline u m now) := by
  have hcs : SameButMotors { s with cs := pidState s.cfg.num s.cs (tickError s m) now }
      { u with cs := pidState u.cfg.num u.cs (tickError u m) now } := by
    obtain ⟨q, o, rfl, ho⟩ := h
    exact ⟨q, o, rfl, ho⟩
  have hmotor : (tickMotor u m now).hideMotor = (tickMotor s m now).hideMotor := by
    rw [hideMotor_tickMotor, hideMotor_tickMotor]
  exact (hcs.emit hmotor).emit (d := .ledMirror m) rfl

theorem drain (h : SameButMotors s u) :
    ∃ t v, drain s = .next t ∧ drain u = .next v ∧ SameButMotors t v := by
  cases hfull : s.mbox.full
  · exact ⟨s, u, drain_of_empty hfull, drain_of_empty (h.mbox_eq ▸ hfull), h⟩
  · obtain ⟨f, hf, hexec⟩ := execFrame_commandWrite s.mbox.data
    refine ⟨f s.clearFull, f u.clearFull, ?_, ?_, h.clearFull.commandWrite hf⟩
    · rw [drain_of_full hfull, hexec]
    · rw [drain_of_full (h.mbox_eq ▸ hfull), h.mbox_eq, hexec]

theorem phaseArm (h : SameButMotors s u) (sb : BitVec 8) (now : Millis) :
    ∃ t v, phaseArm sb now s = .next t ∧ phaseArm sb now u = .next v ∧ SameButMotors t v := by
  obtain ⟨hp, e⟩ | ⟨hp, e⟩ | ⟨hp, e⟩ := phaseArm_cases sb now s
  · exact ⟨_, _, e, phaseArm_of_idle sb now (h.phase_eq.trans hp), h⟩
  · exact ⟨_, _, e, phaseArm_of_running sb now (h.phase_eq.trans hp), h.runPipeline _ _⟩
  · exact ⟨_, _, e, phaseArm_of_stopped sb now (h.phase_eq.trans hp), h.emit rfl⟩

theorem step (h : SameButMotors s u) :
    ∃ t v, step s = .next t ∧ step u = .next v ∧ SameButMotors t v := by
  rcases hin : s.inputs with _ | ⟨F | T | _, rest⟩ <;> have hin' := h.inputs_eq.trans hin
  · exact ⟨s, u, step_of_nil hin, step_of_nil hin', h⟩
  · exact ⟨_, _, step_of_deliver hin, step_of_deliver hin', (h.withInputs rest).deliver F⟩
  · obtain ⟨t, v, ht, hv, htv⟩ := (h.withInputs rest).drain
    rw [step_of_tick hin, step_of_tick hin', ht, hv, thenRun_next, thenRun_next]
    exact htv.phaseArm _ _
  · exact ⟨_, _, step_of_reset hin, step_of_reset hin', (h.withInputs rest).resetStep⟩

end SameButMotors

/-- Settles O58: a step keeps the relation of the two runs. -/
theorem parametersShowOnlyInMotorCommands : Obligations.ParametersShowOnlyInMotorCommands := by
  intro s q o ho
  have h : SameButMotors s { s with p := q, out := o } := ⟨q, o, rfl, ho⟩
  obtain ⟨t, u, ht, hu, r, w, hrw, hw⟩ := h.step
  exact ⟨t, u, r, w, ht, hu, hrw, hw⟩

end Sys2Proof.Machine

/-! PROOFS. The mailbox (`spec/20_memory.md`): O39, O50 and O51. -/

namespace Sys2Proof.Machine

/-! ## Deliver and the slot (rule R36) -/

theorem step_of_deliver_of_empty {s : State} {F : Frame} {rest : List Input} (hin : s.inputs = .deliver F :: rest)
    (hempty : s.mbox.full = false) : step s = .next ((s.withInputs rest).fillMailbox F) := by
  rw [step_of_deliver hin, deliver_of_empty (s := s.withInputs rest) F hempty]

/-- Backpressure: the pending frame stays, the delivered one is lost (the spec's decision D16). -/
theorem step_of_deliver_of_full {s : State} {F : Frame} {rest : List Input} (hin : s.inputs = .deliver F :: rest)
    (hfull : s.mbox.full = true) : step s = .next (s.withInputs rest) := by
  rw [step_of_deliver hin, deliver_of_full (s := s.withInputs rest) F hfull]

/-- Settles O50, by what the slot holds when the frame comes. -/
theorem deliverFillsOnlyAnEmptySlot : Obligations.DeliverFillsOnlyAnEmptySlot :=
  fun _ _ _ hin => ⟨step_of_deliver_of_empty hin, step_of_deliver_of_full hin⟩

/-! ## The drain (rule R37) -/

/-- The drain of a frame that no row names clears the flag and does nothing else. -/
theorem drain_of_error {s : State} {e : DecodeError} (hfull : s.mbox.full = true)
    (he : decodeFrame s.mbox.data = .error e) : drain s = .next s.clearFull :=
  (drain_of_full hfull).trans (execFrame_of_error he _)

/-- The drain leaves the slot empty and its data in place (log entry 13). -/
theorem drain_mbox {s t : State} (h : drain s = .next t) : t.mbox = ⟨false, s.mbox.data⟩ := by
  obtain ⟨-, -, -, -, hfull, hdata⟩ := drain_frame h
  rw [← hfull, ← hdata]

/-- Settles O39: the three cases of the slot, what the drain leaves in it, and the phase arm after it. -/
theorem drainExecutesThePendingFrameOnce : Obligations.DrainExecutesThePendingFrameOnce := by
  refine fun s => ⟨drain_of_empty, fun _ => drain_eq_exec, fun _ => drain_of_error, fun _ => drain_mbox, ?_⟩
  intro sb now t hdrain
  rw [exec_tick, hdrain, thenRun_next]

/-! ## From the accepted Deliver to the next Tick (rules R34(b), R39) -/

/-- While a frame is pending, a row of Delivers only uses up the schedule: induction on the frames delivered. -/
theorem run_delivers_of_full (n : Nat) (rest : List Input) (gs : List Frame) :
    ∀ s : State, s.mbox.full = true → s.inputs = gs.map Input.deliver ++ rest →
      core.run (n + gs.length) s = core.run n (s.withInputs rest) := by
  induction gs with
  | nil =>
    rintro s - rfl
    rfl
  | cons G gs ih =>
    intro s hfull hin
    calc core.run (n + gs.length + 1) s
        = core.run (n + gs.length) (s.withInputs (gs.map Input.deliver ++ rest)) :=
          run_succ _ (step_of_deliver_of_full hin hfull)
      _ = core.run n (s.withInputs rest) := ih _ hfull rfl

/-- A Tick with a frame pending executes that frame, then its phase arm, and empties the slot; it always completes. -/
theorem step_of_tick_of_full {s : State} {T : Frame} {rest : List Input} (hin : s.inputs = .tick T :: rest)
    (hfull : s.mbox.full = true) :
    ∃ t u, execFrame s.mbox.data (s.withInputs rest).clearFull = .next t ∧
      phaseArm (T.extractLsb' 0 8) (T.extractLsb' 8 32) t = .next u ∧ step s = .next u ∧ u.mbox.full = false := by
  obtain ⟨t, ht⟩ := drain_total (s.withInputs rest)
  obtain ⟨u, hu⟩ := phaseArm_total (T.extractLsb' 0 8) (T.extractLsb' 8 32) t
  obtain ⟨-, -, hmbox, -⟩ := phaseArm_frame hu
  refine ⟨t, u, (drain_of_full (s := s.withInputs rest) hfull).symm.trans ht, hu, ?_, ?_⟩
  · rw [step_of_tick hin, ht, thenRun_next, hu]
  · rw [hmbox, drain_mbox ht]

/-- Settles O51: the accepted Deliver fills the slot, the Delivers after it are dropped, and the Tick drains it. -/
theorem nextTickExecutesTheAcceptedFrame : Obligations.NextTickExecutesTheAcceptedFrame := by
  intro s F gs T rest hempty hin
  obtain ⟨t, u, ht, hu, hstep, hmbox⟩ :=
    step_of_tick_of_full (s := (s.withInputs (.tick T :: rest)).fillMailbox F) rfl rfl
  refine ⟨t, u, ht, hu, ?_, hmbox⟩
  calc core.run (gs.length + 1 + 1) s
      = core.run (gs.length + 1) ((s.withInputs (gs.map Input.deliver ++ .tick T :: rest)).fillMailbox F) :=
        run_succ _ (step_of_deliver_of_empty hin hempty)
    _ = core.run 1 ((s.withInputs (.tick T :: rest)).fillMailbox F) := by
        rw [Nat.add_comm]; exact run_delivers_of_full 1 (.tick T :: rest) gs _ rfl rfl
    _ = .next u := run_succ 0 hstep

end Sys2Proof.Machine

/-! PROOFS. The decoder and the encoder (`spec/30_encoding.md`): O5, O6, O7, O8, O9, O17 and O41. The fields of a frame
come first, then what `decodeFrame` answers for each kind of frame; the statements are read off these. -/

namespace Sys2Proof.Machine

/-! ## The fields of a frame built by appending, and the frame put together from its fields (rule R42) -/

@[simp] theorem frameByte_zero_append (x : BitVec 32) (b : Byte) : frameByte (x ++ b) 0 = b :=
  BitVec.extractLsb'_append_eq_right

theorem frameByte_succ_append (x : BitVec 32) (b : Byte) (k : Nat) :
    frameByte (x ++ b) (k + 1) = x.extractLsb' (8 * k) 8 :=
  BitVec.extractLsb'_append_eq_of_le (xhi := x) (xlo := b) (start := 8 * (k + 1)) (by omega)

@[simp] theorem frameByte_one_append (x : BitVec 24) (b c : Byte) : frameByte (x ++ b ++ c) 1 = b :=
  (frameByte_succ_append (x ++ b) c 0).trans BitVec.extractLsb'_append_eq_right

@[simp] theorem frameByte_two_append (x : BitVec 16) (b c d : Byte) : frameByte (x ++ b ++ c ++ d) 2 = b :=
  calc frameByte (x ++ b ++ c ++ d) 2
      = (x ++ b ++ c).extractLsb' 8 8 := frameByte_succ_append (x ++ b ++ c) d 1
    _ = (x ++ b).extractLsb' 0 8 := BitVec.extractLsb'_append_eq_of_le (xhi := x ++ b) (xlo := c) le_rfl
    _ = b := BitVec.extractLsb'_append_eq_right

@[simp] theorem frameTail4_append (x : BitVec 32) (b : Byte) : frameTail4 (x ++ b) = x :=
  BitVec.extractLsb'_append_eq_left

@[simp] theorem frameTail3_append (x : BitVec 24) (b c : Byte) : frameTail3 (x ++ b ++ c) = x :=
  (BitVec.extractLsb'_append_eq_of_le (xhi := x ++ b) (xlo := c) (by decide)).trans BitVec.extractLsb'_append_eq_left

@[simp] theorem tuneValue_append (x : BitVec 16) (b c d : Byte) : tuneValue (x ++ b ++ c ++ d) = x.toInt :=
  congrArg BitVec.toInt <| calc (x ++ b ++ c ++ d).extractLsb' 24 16
      = (x ++ b ++ c).extractLsb' 16 16 :=
        BitVec.extractLsb'_append_eq_of_le (xhi := x ++ b ++ c) (xlo := d) (by decide)
    _ = (x ++ b).extractLsb' 8 16 := BitVec.extractLsb'_append_eq_of_le (xhi := x ++ b) (xlo := c) (by decide)
    _ = x := BitVec.extractLsb'_append_eq_left

theorem frameTail4_append_byte (F : Frame) : frameTail4 F ++ frameByte F 0 = F :=
  BitVec.extractLsb'_append_extractLsb' (w := 32) (len := 8)

theorem frameTail3_append_bytes (F : Frame) : frameTail3 F ++ frameByte F 1 ++ frameByte F 0 = F := by
  have h : frameTail3 F ++ frameByte F 1 = frameTail4 F := BitVec.extractLsb'_append_extractLsb'_eq_extractLsb' rfl
  rw [h, frameTail4_append_byte]

theorem value_append_bytes (F : Frame) :
    F.extractLsb' 24 16 ++ frameByte F 2 ++ frameByte F 1 ++ frameByte F 0 = F := by
  have h : F.extractLsb' 24 16 ++ frameByte F 2 = frameTail3 F :=
    BitVec.extractLsb'_append_extractLsb'_eq_extractLsb' rfl
  rw [h, frameTail3_append_bytes]

/-- A byte of a frame, computed on numbers (rule R42). -/
theorem frameByte_eq_iff (F : Frame) (k : Nat) (b : Byte) :
    frameByte F k = b ↔ F.toNat / 2 ^ (8 * k) % 256 = b.toNat := by
  rw [← BitVec.toNat_inj, frameByte, BitVec.extractLsb'_toNat, Nat.shiftRight_eq_div_pow]

/-- The TUNE value of a frame, computed on numbers (rule R45). -/
theorem tuneValue_eq (F : Frame) :
    tuneValue F = if F.toNat / 2 ^ 24 < 2 ^ 15 then ((F.toNat / 2 ^ 24 : Nat) : Int)
      else ((F.toNat / 2 ^ 24 : Nat) : Int) - 2 ^ 16 := by
  have hlt : F.toNat / 2 ^ 24 < 2 ^ 16 := by omega
  rw [tuneValue, BitVec.toInt_eq_toNat_cond, BitVec.extractLsb'_toNat, Nat.shiftRight_eq_div_pow, Nat.mod_eq_of_lt hlt]
  split <;> split <;> omega

theorem tuneValueOk_toInt (x : BitVec 16) : tuneValueOk x.toInt :=
  ⟨x.le_toInt, Int.le_of_lt_add_one x.toInt_lt⟩

/-! ## The five TUNE rows as one (rules R29, R44, R53) -/

/-- The TUNE instruction of a parameter: rows of the table that differ in nothing but the index. -/
def tuneInstr : Param → Int → Instr
  | .baseSpeed => .tuneBase
  | .maxCorrection => .tuneMaxc
  | .kP => .tuneKp
  | .kD => .tuneKd
  | .kI => .tuneKi

theorem encode_tuneInstr (p : Param) (v : Int) : encode (tuneInstr p v) = encodeTune (paramIndex p) v := by
  cases p <;> rfl

theorem wellFormed_tuneInstr (p : Param) (v : Int) : (tuneInstr p v).wellFormed = decide (tuneValueOk v) := by
  cases p <;> rfl

theorem decodeTune_paramIndex (p : Param) (v : Int) : decodeTune (paramIndex p) v = .ok (tuneInstr p v) := by
  cases p <;> rfl

theorem tuneInstr_of_decodeTune {idx : Byte} {v : Int} {i : Instr} (h : decodeTune idx v = .ok i) :
    ∃ p, idx = paramIndex p ∧ i = tuneInstr p v := by
  obtain h | h | h | h | h := decodeTune_ok_cases h
  · exact ⟨.baseSpeed, h⟩
  · exact ⟨.maxCorrection, h⟩
  · exact ⟨.kP, h⟩
  · exact ⟨.kD, h⟩
  · exact ⟨.kI, h⟩

/-- An index byte that selects no register is above 4. -/
theorem eq_paramIndex_or_lt (idx : Byte) : (∃ p, idx = paramIndex p) ∨ 4 < idx.toNat := by
  by_contra! h
  obtain ⟨hne, hle⟩ := h
  have h0 := hne .baseSpeed
  have h1 := hne .maxCorrection
  have h2 := hne .kP
  have h3 := hne .kD
  have h4 := hne .kI
  simp only [paramIndex] at h0 h1 h2 h3 h4
  bv_omega

theorem toNat_paramIndex_le (p : Param) : (paramIndex p).toNat ≤ 4 := by cases p <;> decide

/-! ## What the frame decoder answers, one equation per kind of frame (rules R43, R44, R49) -/

section
variable {F : Frame}

theorem decodeFrame_of_echo (h0 : frameByte F 0 = 0x03#8) : decodeFrame F = .ok (.echo (frameTail4 F)) := by
  simp [decodeFrame, h0]

theorem decodeFrame_of_rsvd0 (h0 : frameByte F 0 = 0x00#8) : decodeFrame F = .ok (.rsvd0 (frameTail4 F)) := by
  simp [decodeFrame, h0]

theorem decodeFrame_of_cm0Local (h0 : frameByte F 0 = 0x01#8) : decodeFrame F = .ok (.cm0Local (frameTail4 F)) := by
  simp [decodeFrame, h0]

theorem decodeFrame_of_routed (h0 : frameByte F 0 = 0x02#8) : decodeFrame F = decodeRouted F := by
  simp [decodeFrame, h0]

theorem decodeFrame_of_startCar (h0 : frameByte F 0 = 0x02#8) (h1 : frameByte F 1 = Config.subStart) :
    decodeFrame F = .ok (.startCar (frameTail3 F)) :=
  (decodeFrame_of_routed h0).trans (if_pos h1)

theorem decodeFrame_of_stopCar (h0 : frameByte F 0 = 0x02#8) (h1 : frameByte F 1 = Config.subStop) :
    decodeFrame F = .ok (.stopCar (frameTail3 F)) := by
  rw [decodeFrame_of_routed h0, decodeRouted, h1]
  rfl

theorem decodeFrame_of_subTune (h0 : frameByte F 0 = 0x02#8) (h1 : frameByte F 1 = Config.subTune) :
    decodeFrame F = decodeTune (frameByte F 2) (tuneValue F) := by
  rw [decodeFrame_of_routed h0, decodeRouted, h1]
  rfl

theorem decodeFrame_of_tune {p : Param} (h0 : frameByte F 0 = 0x02#8) (h1 : frameByte F 1 = Config.subTune)
    (h2 : frameByte F 2 = paramIndex p) : decodeFrame F = .ok (tuneInstr p (tuneValue F)) := by
  rw [decodeFrame_of_subTune h0 h1, h2, decodeTune_paramIndex]

end

/-! ## Decode and encode are inverse to each other (rules R41, R52): O6, O7 -/

theorem decodeFrame_encodeTune (p : Param) {v : Int} (h : tuneValueOk v) :
    decodeFrame (encodeTune (paramIndex p) v) = .ok (tuneInstr p v) := by
  obtain ⟨hlo, hhi⟩ := h
  have hv : (BitVec.ofInt 16 v).toInt = v := BitVec.toInt_ofInt_eq_self (by decide) hlo (Int.lt_add_one_of_le hhi)
  have hdec := decodeFrame_of_tune (F := encodeTune (paramIndex p) v) (frameByte_zero_append _ _)
    (frameByte_one_append _ _ _) (frameByte_two_append _ _ _ _)
  rwa [encodeTune, tuneValue_append, hv] at hdec

/-- Settles O6, by the row of the table: the fields of the built word are the parts it was built of. -/
theorem decodeReadsBackEveryEncoding : Obligations.DecodeReadsBackEveryEncoding := by
  intro i hwf
  cases i with
  | startCar x => simp [decode, encode, Instr.port, decodeFrame_of_startCar]
  | stopCar x => simp [decode, encode, Instr.port, decodeFrame_of_stopCar]
  | tuneBase v => exact decodeFrame_encodeTune .baseSpeed (of_decide_eq_true hwf)
  | tuneMaxc v => exact decodeFrame_encodeTune .maxCorrection (of_decide_eq_true hwf)
  | tuneKp v => exact decodeFrame_encodeTune .kP (of_decide_eq_true hwf)
  | tuneKd v => exact decodeFrame_encodeTune .kD (of_decide_eq_true hwf)
  | tuneKi v => exact decodeFrame_encodeTune .kI (of_decide_eq_true hwf)
  | echo p => simp [decode, encode, Instr.port, decodeFrame_of_echo]
  | rsvd0 x => simp [decode, encode, Instr.port, decodeFrame_of_rsvd0]
  | cm0Local x => simp [decode, encode, Instr.port, decodeFrame_of_cm0Local]
  | tick s now =>
    have hs : (now ++ s).extractLsb' 0 8 = s := BitVec.extractLsb'_append_eq_right
    have hnow : (now ++ s).extractLsb' 8 32 = now := BitVec.extractLsb'_append_eq_left
    exact congrArg Except.ok (congrArg₂ Instr.tick hs hnow)

/-- A frame that decodes is the well-formed encoding of its instruction, by the row it decoded to. -/
theorem encode_of_decodeFrame {F : Frame} {i : Instr} (h : decodeFrame F = .ok i) :
    encode i = F ∧ i.wellFormed = true := by
  obtain ⟨h0, rfl⟩ | ⟨h0, rfl⟩ | ⟨h0, rfl⟩ | ⟨h0, h⟩ := decodeFrame_ok_cases h
  · exact ⟨by rw [encode, ← h0, frameTail4_append_byte], rfl⟩
  · exact ⟨by rw [encode, ← h0, frameTail4_append_byte], rfl⟩
  · exact ⟨by rw [encode, ← h0, frameTail4_append_byte], rfl⟩
  obtain ⟨h1, rfl⟩ | ⟨h1, rfl⟩ | ⟨h1, h⟩ := decodeRouted_ok_cases h
  · exact ⟨by rw [encode, ← h1, ← h0, frameTail3_append_bytes], rfl⟩
  · exact ⟨by rw [encode, ← h1, ← h0, frameTail3_append_bytes], rfl⟩
  obtain ⟨p, h2, rfl⟩ := tuneInstr_of_decodeTune h
  constructor
  · rw [encode_tuneInstr, encodeTune, tuneValue, BitVec.ofInt_toInt, ← h2, ← h1, ← h0]
    exact value_append_bytes F
  · rw [wellFormed_tuneInstr]
    exact decide_eq_true (tuneValueOk_toInt _)

/-- Settles O7, by the port: a T-WORD is its two fields, and a frame is the encoding of the row it decoded to. -/
theorem encodeReturnsTheDecodedWord : Obligations.EncodeReturnsTheDecodedWord := by
  intro q w i h
  cases q with
  | frame =>
    obtain ⟨henc, hwf⟩ := encode_of_decodeFrame h
    exact ⟨henc, port_of_decodeFrame h, hwf⟩
  | tick =>
    cases h
    exact ⟨frameTail4_append_byte w, rfl, rfl⟩

/-! ## The INVALID set (rules R50, R101): O17 -/

theorem isInvalidDecode_decodeTune (idx : Byte) (v : Int) :
    isInvalidDecode (decodeTune idx v) = true ↔ 4 < idx.toNat := by
  obtain ⟨p, rfl⟩ | hidx := eq_paramIndex_or_lt idx
  · have hvalid : isInvalidDecode (.ok (tuneInstr p v)) = false := by cases p <;> rfl
    rw [decodeTune_paramIndex, hvalid]
    exact iff_of_false Bool.false_ne_true (toNat_paramIndex_le p).not_gt
  · cases hd : decodeTune idx v with
    | error e => exact iff_of_true rfl hidx
    | ok i =>
      obtain ⟨p, rfl, -⟩ := tuneInstr_of_decodeTune hd
      exact absurd hidx (toNat_paramIndex_le p).not_gt

theorem isInvalidDecode_decodeRouted (F : Frame) :
    isInvalidDecode (decodeRouted F) = true ↔
      (frameByte F 1 ≠ 0x01#8 ∧ frameByte F 1 ≠ 0x02#8 ∧ frameByte F 1 ≠ 0x03#8) ∨
      (frameByte F 1 = 0x03#8 ∧ 4 < (frameByte F 2).toNat) := by
  unfold decodeRouted Config.subStart Config.subStop Config.subTune
  split
  · next h => simp [isInvalidDecode, h]
  split
  · next h => simp [isInvalidDecode, h]
  split
  · next h => simp [isInvalidDecode_decodeTune, h]
  · next h1 h2 h3 => simp [isInvalidDecode, h1, h2, h3]

/-- The frames that decode to INVALID are the rule's set, level by level of the opcode map. -/
theorem isInvalidDecode_decodeFrame (F : Frame) : isInvalidDecode (decodeFrame F) = true ↔ invalidFrame F := by
  unfold decodeFrame invalidFrame
  split
  · next h => simp [isInvalidDecode, h]
  split
  · next h => simp [isInvalidDecode, h]
  split
  · next h => simp [isInvalidDecode, h]
  split
  · next h => simp [isInvalidDecode_decodeRouted, h]
  · next h3 _ _ h2 => simp [isInvalidDecode, h3, h2]

theorem execFrame_of_invalid {F : Frame} (h : invalidFrame F) (s : State) : execFrame F s = .next s := by
  have hinv := (isInvalidDecode_decodeFrame F).mpr h
  cases hd : decodeFrame F with
  | error e => exact execFrame_of_error hd s
  | ok i =>
    rw [hd] at hinv
    rw [execFrame_eq_exec hd]
    cases i with
    | rsvd0 _ => rfl
    | cm0Local _ => rfl
    | _ => cases hinv

/-- Settles O17: the set by the levels of the decoder; the drain of such a frame only clears the flag. -/
theorem invalidFramesAreDropped : Obligations.InvalidFramesAreDropped := by
  refine ⟨isInvalidDecode_decodeFrame, fun _ s h => execFrame_of_invalid h s, fun sb now s hfull hinv => ?_,
    fun _ _ => ⟨rfl, rfl⟩⟩
  rw [exec_tick, drain_of_full hfull, execFrame_of_invalid hinv, thenRun_next]
  rfl

/-! ## The ordered checks on numbers (rule R49): O8 -/

/-- Settles O8: each number is a byte of the frame, so each clause is an equation of the decoder or a part of the
INVALID set. -/
theorem decodeFollowsItsOrderedChecks : Obligations.DecodeFollowsItsOrderedChecks := by
  intro F f0 f1 f2 n v hf0 hf1 hf2 hn hv
  have b0 : ∀ b, frameByte F 0 = b ↔ f0 = b.toNat := fun b => by
    rw [frameByte_eq_iff, hf0, Nat.mul_zero, pow_zero, Nat.div_one]
  have b1 : ∀ b, frameByte F 1 = b ↔ f1 = b.toNat := hf1 ▸ frameByte_eq_iff F 1
  have b2 : ∀ b, frameByte F 2 = b ↔ f2 = b.toNat := hf2 ▸ frameByte_eq_iff F 2
  have htune (p : Param) (h0 : f0 = 2) (h1 : f1 = 3) (h2 : f2 = (paramIndex p).toNat) :
      decodeFrame F = .ok (tuneInstr p v) := by
    have hval : tuneValue F = v := by rw [tuneValue_eq, hv, hn]
    rw [decodeFrame_of_tune ((b0 _).mpr h0) ((b1 _).mpr h1) ((b2 _).mpr h2), hval]
  refine ⟨fun h0 => ?_, fun h3 h2 => ?_, fun h0 h1 => ?_, fun h0 h1 => ?_, fun h0 h1 h2 h3 => ?_, htune .baseSpeed,
    htune .maxCorrection, htune .kP, htune .kD, htune .kI, fun h0 h1 h2 => ?_⟩
  · have hdec := decodeFrame_of_echo ((b0 _).mpr h0)
    obtain ⟨henc, -⟩ := encode_of_decodeFrame hdec
    exact ⟨_, hdec, henc⟩
  · exact (isInvalidDecode_decodeFrame F).mpr (.inl ⟨mt (b0 _).mp h2, mt (b0 _).mp h3⟩)
  · exact ⟨_, decodeFrame_of_startCar ((b0 _).mpr h0) ((b1 _).mpr h1)⟩
  · exact ⟨_, decodeFrame_of_stopCar ((b0 _).mpr h0) ((b1 _).mpr h1)⟩
  · exact (isInvalidDecode_decodeFrame F).mpr
      (.inr (.inl ⟨(b0 _).mpr h0, mt (b1 _).mp h1, mt (b1 _).mp h2, mt (b1 _).mp h3⟩))
  · exact (isInvalidDecode_decodeFrame F).mpr
      (.inr (.inr ⟨(b0 _).mpr h0, (b1 _).mpr h1, h2.trans_eq ((b2 _).mp rfl)⟩))

/-! ## The TUNE value on bytes (rule R45): O9 -/

/-- Two bytes read as a signed 16-bit number: only the sign of the upper byte matters. -/
theorem toInt_append_byte (hi lo : Byte) :
    (hi ++ lo).toInt = if hi.toNat < 128 then (256 * hi.toNat + lo.toNat : Int)
      else (256 * hi.toNat + lo.toNat : Int) - 65536 := by
  rw [BitVec.toInt_append, if_neg (by decide), BitVec.toInt_eq_toNat_cond]
  split <;> split <;> omega

/-- Settles O9: the value of a frame written out is that of its two upper bytes. -/
theorem tuneValueIsLittleEndianSigned : Obligations.TuneValueIsLittleEndianSigned := by
  have hvalue (f0 f1 f2 f3 f4 : Byte) : tuneValue (frameOfBytes f0 f1 f2 f3 f4) = (f4 ++ f3).toInt :=
    tuneValue_append (f4 ++ f3) f2 f1 f0
  refine ⟨fun f0 f1 f2 f3 f4 => ⟨frameByte_two_append _ _ _ _, ?_, tuneValueOk_toInt _⟩, fun f0 f1 f2 => ?_⟩
  · rw [hvalue, toInt_append_byte]
  · simp only [hvalue]
    decide

/-! ## Frames written out, and a placed word (rules R37, R52): O5 and O41 -/

/-- Settles O5: twelve words, each evaluated. -/
theorem writtenOutFramesDecode : Obligations.WrittenOutFramesDecode := by
  unfold Obligations.WrittenOutFramesDecode
  decide

theorem decodeTick_drainingTick : decodeTick drainingTick = .tick 0#8 0#32 := by decide

theorem decodeTableWord_forty (w : Nat) : decodeTableWord 40 w = some (decodeTable (tableWord 40 w)) := rfl

section
variable {w : Frame}

theorem decodeTable_of_ok {i : Instr} (h : decodeFrame w = .ok i) : decodeTable w = i := by
  rw [decodeTable, h]

theorem decodeTable_of_error {e : DecodeError} (h : decodeFrame w = .error e) : decodeTable w = decodeTick w := by
  rw [decodeTable, h]

/-- A placed frame is executed by the Tick placed with it, whose phase arm then goes on. -/
theorem step_placeWord_of_ok {i : Instr} (h : decodeFrame w = .ok i) (s : State) :
    ∃ t, exec i { s with mbox := ⟨false, w⟩ } = .next t ∧ step (placeWord s w) = phaseArm 0#8 0#32 t := by
  have hplace : placeWord s w = (s.fillMailbox w).withInputs (.tick drainingTick :: s.inputs) := by rw [placeWord, h]
  have hdrain : drain (s.fillMailbox w) = exec i { s with mbox := ⟨false, w⟩ } := drain_eq_exec rfl h
  obtain ⟨t, ht⟩ := drain_total (s.fillMailbox w)
  refine ⟨t, hdrain.symm.trans ht, ?_⟩
  calc step (placeWord s w)
      = exec (decodeTick drainingTick) (s.fillMailbox w) := by rw [hplace]; exact step_eq_exec_decodeTick rfl
    _ = phaseArm 0#8 0#32 t := by rw [decodeTick_drainingTick, exec_tick, ht, thenRun_next]

/-- A placed word that matches no frame row is the T-WORD of the next Tick. -/
theorem step_placeWord_of_error {e : DecodeError} (h : decodeFrame w = .error e) (s : State) :
    step (placeWord s w) = exec (decodeTick w) s := by
  have hplace : placeWord s w = s.withInputs (.tick w :: s.inputs) := by rw [placeWord, h]
  rw [hplace]
  exact step_eq_exec_decodeTick rfl

end

/-- Settles O41: a word that matches a frame row is drained by the Tick placed with it; any other is the Tick. -/
theorem placedWordIsRunByTheNextStep : Obligations.PlacedWordIsRunByTheNextStep := by
  intro s w i hi
  obtain rfl : decodeTable (tableWord 40 w) = i := Option.some.inj ((decodeTableWord_forty w).symm.trans hi)
  cases hd : decodeFrame (tableWord 40 w) with
  | ok j =>
    rw [decodeTable_of_ok hd]
    refine ⟨fun _ => step_placeWord_of_ok hd s, fun htick => ?_⟩
    cases (port_of_decodeFrame hd).symm.trans htick
  | error e =>
    rw [decodeTable_of_error hd]
    exact ⟨fun hframe => (nomatch hframe), fun _ => step_placeWord_of_error hd s⟩

end Sys2Proof.Machine

/-! PROOFS. The Position Estimator (`spec/41_position_estimator.md`): O19, O20, O21, O22 and O23. A sum over the active
sensors is a sum over all seven with the inactive ones counted as zero; the written-out mean and the reversal of the
mask are both read off that form. -/

namespace Sys2Proof.Machine

/-! ## Sums over the active sensors (rule R56) -/

theorem sum_activeSensors {M : Type} [AddCommMonoid M] (m : Mask) (g : Nat → M) :
    ((activeSensors m).map g).sum = ∑ i ∈ Finset.range 7, if m.getLsbD i then g i else 0 := by
  have hnodup : (activeSensors m).Nodup := List.nodup_range.filter _
  rw [← List.sum_toFinset g hnodup, activeSensors, List.toFinset_filter, List.toFinset_range, Finset.sum_filter]
  rfl

theorem weightSum_eq_sum (m : Mask) : weightSum m = ∑ i ∈ Finset.range 7, if m.getLsbD i then weight i else 0 :=
  sum_activeSensors m weight

theorem activeCount_eq_sum (m : Mask) : activeCount m = ∑ i ∈ Finset.range 7, if m.getLsbD i then 1 else 0 := by
  rw [← sum_activeSensors m fun _ => 1, List.map_const', List.sum_replicate, smul_eq_mul, mul_one, activeCount]

theorem activeCount_pos {m : Mask} (h : m ≠ 0#7) : 0 < activeCount m := by
  by_contra hcount
  have hnil : activeSensors m = [] := List.length_eq_zero_iff.mp (Nat.eq_zero_of_not_pos hcount)
  refine h (BitVec.eq_of_getLsbD_eq fun i hi => ?_)
  simpa using List.filter_eq_nil_iff.mp hnil i (List.mem_range.mpr hi)

/-- Settles O19: the sum and the count of EST are exact, so the only rounding is the one of the quotient. -/
theorem estimateIsTheRoundedMean : Obligations.EstimateIsTheRoundedMean := by
  intro f m le hm
  rw [est_of_active f le (activeCount_pos hm), weightSum_eq_sum, activeCount_eq_sum]
  simp [Finset.sum_range_succ, -Finset.sum_boole, weight, Config.centerIndex, Config.weightStep]

/-! ## The lost line and the range (rules R57, R59) -/

theorem est_zero (f : NumFormat) (le : ℚ) : est f 0#7 le = lostLine le := if_neg (by decide)

theorem lostLine_of_neg {le : ℚ} (h : le < 0) : lostLine le = -3000 := if_pos ((flt_iff _ _).mpr h)

theorem lostLine_of_nonneg {le : ℚ} (h : 0 ≤ le) : lostLine le = 3000 :=
  if_neg fun hlt => h.not_gt ((flt_iff _ _).mp hlt)

/-- Settles O20: no sensor is active in the mask 0, and the test on the last error is strict. -/
theorem lostLineFollowsTheErrorSign : Obligations.LostLineFollowsTheErrorSign := fun f le =>
  ⟨fun h => (est_zero f le).trans (lostLine_of_neg h), fun h => (est_zero f le).trans (lostLine_of_nonneg h)⟩

/-- Settles O21: a mean of weights in the range is in the range, and rounding keeps the range. -/
theorem positionStaysInRange : Obligations.PositionStaysInRange := est_mem

/-! ## Reversing the mask (rule R55) -/

theorem getLsbD_reverse_reflect (m : Mask) {i : Nat} (h : i < 7) : m.reverse.getLsbD (7 - 1 - i) = m.getLsbD i := by
  have hreflect : 7 - 1 - i < 7 := by omega
  rw [BitVec.getLsbD_reverse, BitVec.getMsbD_eq_getLsbD, decide_eq_true hreflect, Bool.true_and,
    Nat.sub_sub_self (by omega)]

theorem sum_reverse_mask {M : Type} [AddCommMonoid M] (m : Mask) (g : Nat → M) :
    (∑ i ∈ Finset.range 7, if m.reverse.getLsbD i then g i else 0) =
      ∑ i ∈ Finset.range 7, if m.getLsbD i then g (7 - 1 - i) else 0 := by
  rw [← Finset.sum_range_reflect]
  exact Finset.sum_congr rfl fun i hi => by rw [getLsbD_reverse_reflect m (Finset.mem_range.mp hi)]

theorem activeCount_reverse (m : Mask) : activeCount m.reverse = activeCount m := by
  rw [activeCount_eq_sum, activeCount_eq_sum, sum_reverse_mask m fun _ => 1]

/-- The weight table is antisymmetric about the center sensor. -/
theorem weight_reflect {i : Nat} (h : i < 7) : weight (7 - 1 - i) = -weight i := by
  unfold weight Config.centerIndex Config.weightStep
  omega

theorem weightSum_reverse (m : Mask) : weightSum m.reverse = -weightSum m := by
  rw [weightSum_eq_sum, weightSum_eq_sum, sum_reverse_mask, ← Finset.sum_neg_distrib]
  refine Finset.sum_congr rfl fun i hi => ?_
  rw [weight_reflect (Finset.mem_range.mp hi), apply_ite Neg.neg, neg_zero]

/-- Settles O22: reversing the mask negates the sum and keeps the count, and both roundings are odd. -/
theorem estimateIsAntisymmetric : Obligations.EstimateIsAntisymmetric := by
  intro f m le hm
  have hpos : 0 < activeCount m := activeCount_pos hm
  rw [est_of_active f le (by rwa [activeCount_reverse]), est_of_active f le hpos, activeCount_reverse,
    weightSum_reverse, Int.cast_neg, neg_div, rnd_neg]

/-! ## Sensor bit 7 (rules R58, R88) -/

theorem sensorMask_xor (a b : BitVec 8) : sensorMask (a ^^^ b) = sensorMask a ^^^ sensorMask b :=
  BitVec.extractLsb'_xor

theorem sensorMask_flip_bitSeven (sb : BitVec 8) : sensorMask (sb ^^^ 0x80#8) = sensorMask sb := by
  have hbit : sensorMask 0x80#8 = 0#7 := by decide
  rw [sensorMask_xor, hbit, BitVec.xor_zero]

/-- The phase arm sees the sensor byte through its mask only. -/
theorem phaseArm_congr_sensorMask {sb sb' : BitVec 8} (h : sensorMask sb = sensorMask sb') (now : Millis) :
    phaseArm sb now = phaseArm sb' now := by
  funext s
  rw [phaseArm, phaseArm, h]

/-- Settles O23: the drain reads no sensor byte, and the phase arm reads its mask only. -/
theorem sensorBitSevenIsIgnored : Obligations.SensorBitSevenIsIgnored := by
  intro sb now s
  rw [exec_tick, exec_tick, phaseArm_congr_sensorMask (sensorMask_flip_bitSeven sb)]

end Sys2Proof.Machine

/-! PROOFS. The PID Controller (`spec/42_pid_controller.md`): O4, O24, O26, O29, O30, O32 and O33. The bounds of rules
R63 and R73 all rest on one fact: rounding does not take a value past a bound that the format can hold. -/

namespace Sys2Proof.Machine

/-! ## Truncation toward zero (rules R7, R70): O4 -/

theorem f2iTrunc_of_nonpos {a : ℚ} (h : a ≤ 0) : f2iTrunc a = -⌊-a⌋ := by
  rw [← f2iTrunc_of_nonneg (neg_nonneg.mpr h), f2iTrunc_neg, neg_neg]

/-- Settles O4: truncation is the floor of a nonnegative value, and the negated floor of the negation of a nonpositive
one. -/
theorem truncationIsTowardZero : Obligations.TruncationIsTowardZero := by
  refine fun a => ⟨fun h => ?_, fun h => ?_⟩
  · rw [f2iTrunc_of_nonneg h]
    exact ⟨Int.floor_nonneg.mpr h, Int.floor_le a, Int.lt_floor_add_one a⟩
  · have hnonneg : 0 ≤ ⌊-a⌋ := Int.floor_nonneg.mpr (neg_nonneg.mpr h)
    have hle : (⌊-a⌋ : ℚ) ≤ -a := Int.floor_le _
    have hlt : -a < ⌊-a⌋ + 1 := Int.lt_floor_add_one _
    rw [f2iTrunc_of_nonpos h, Int.cast_neg]
    exact ⟨neg_nonpos.mpr hnonneg, le_neg.mp hle, by linarith⟩

/-! ## The seven steps (rule R72): O24 -/

/-- The modular difference of rule R63, on integers (decision D32). -/
theorem elapsedMs_intCast (last now : Millis) :
    (elapsedMs last now : Int) = ((now.toNat : Int) - last.toNat) % 2 ^ 32 := by
  rw [elapsedMs, BitVec.toNat_sub]
  omega

theorem deltaTime_eq (f : NumFormat) (d : Nat) :
    deltaTime f d =
      if rnd f (rnd f (d : Int) / 1000) < rnd f (1 / 1000) then rnd f (1 / 1000) else rnd f (rnd f (d : Int) / 1000) := by
  simp only [deltaTime, flt_iff]
  rfl

/-- Settles O24: the model's definitions are the rule's lines one by one; the difference and the bound of the last clamp
change their number type only. -/
theorem pidComputesItsSevenSteps : Obligations.PidComputesItsSevenSteps := by
  intro f p cs err now d q dt pt integ it dd sum c
  have hdt : pidDt f cs now = dt := by rw [pidDt, deltaTime_eq, elapsedMs_intCast]
  have hinteg : pidIntegral f cs err now = integ := by rw [pidIntegral, hdt]; rfl
  have hsum : pidSum f p cs err now = sum := by rw [pidSum, hinteg, hdt]; rfl
  have hc : limitCorrection f p.maxCorrection (pidSum f p cs err now) = c := by
    rw [hsum, limitCorrection, i2f, Int.cast_natCast]
  exact ⟨congrArg f2iTrunc hc, by rw [pidState, hinteg]⟩

/-! ## Rounding against a bound the format holds (rule R7) -/

/-- A value written as a 24-bit significand and an exponent is one of the format; for numerals the three side conditions
close by themselves. -/
theorem isNum_of_eq_significand (f : NumFormat) {q : ℚ} (m e : Int) (hm : |m| < 2 ^ 24 := by decide)
    (he : -149 ≤ e := by decide) (hq : q = m * (2 : ℚ) ^ e := by norm_num) : isNum f q := by
  cases f with
  | binary32 => rw [hq, ← pow2_eq_zpow]; exact rnd32_of_significand hm he
  | exact => rfl

theorem rnd_le_of_isNum {f : NumFormat} {q b : ℚ} (hb : isNum f b) (h : q ≤ b) : rnd f q ≤ b :=
  (rnd_mono f h).trans_eq hb

theorem abs_rnd_le_of_isNum {f : NumFormat} {q b : ℚ} (hb : isNum f b) (h : |q| ≤ b) : |rnd f q| ≤ b := by
  obtain ⟨hpos, hneg⟩ := abs_le'.mp h
  refine abs_le'.mpr ⟨rnd_le_of_isNum hb hpos, ?_⟩
  rw [← rnd_neg]
  exact rnd_le_of_isNum hb hneg

/-! ## The time step (rules R63, R73): O26 -/

theorem dtFloor_le_deltaTime (f : NumFormat) (d : Nat) : dtFloor f ≤ deltaTime f d := by
  unfold deltaTime
  split
  · exact le_rfl
  · next h => exact not_lt.mp (mt (flt_iff _ _).mpr h)

/-- The decimal 0.001 is not above its own rounding: binary32 rounds it up. -/
theorem one_thousandth_le_dtFloor (f : NumFormat) : 1 / 1000 ≤ dtFloor f := by
  cases f with
  | binary32 => decide +kernel
  | exact => exact le_rfl

theorem dtFloor_le_one (f : NumFormat) : dtFloor f ≤ 1 :=
  rnd_le_of_isNum (isNum_of_eq_significand f 1 0) (by norm_num [Config.dtMin])

/-- `i2f(d)` may round a 32-bit count up to 2^32 but no further; a thousandth of that is below 4294967.5, a binary32
value. -/
theorem rawDeltaTime_le (f : NumFormat) {d : Nat} (h : d < 2 ^ 32) : rawDeltaTime f d ≤ 8589935 / 2 := by
  have hcount : i2f f d ≤ 2 ^ 32 := rnd_le_of_isNum (isNum_of_eq_significand f 1 32) (by exact_mod_cast h.le)
  refine rnd_le_of_isNum (isNum_of_eq_significand f 8589935 (-1)) ?_
  unfold Config.msPerS
  linarith

theorem pidDt_le (f : NumFormat) (cs : ControllerState) (now : Millis) : pidDt f cs now ≤ 8589935 / 2 := by
  unfold pidDt deltaTime
  split
  · exact (dtFloor_le_one f).trans (by norm_num)
  · exact rawDeltaTime_le f (BitVec.isLt _)

/-- Settles O26: the floor gives the lower bound, and the largest 32-bit count the upper one. -/
theorem timeStepIsBounded : Obligations.TimeStepIsBounded := fun f cs now =>
  ⟨dtFloor_le_deltaTime f _, pidDt_le f cs now⟩

/-! ## The integral along a run (rule R66): O29 -/

/-- The phase arm keeps the range: it leaves the integral alone or stores the one an invocation clamped. -/
theorem phaseArm_integral_mem {sb : BitVec 8} {now : Millis} {s t : State} (h : phaseArm sb now s = .next t)
    (hs : -100 ≤ s.cs.integral ∧ s.cs.integral ≤ 100) : -100 ≤ t.cs.integral ∧ t.cs.integral ≤ 100 := by
  obtain ⟨-, e⟩ | ⟨-, e⟩ | ⟨-, e⟩ := phaseArm_cases sb now s <;> rw [e] at h <;> cases h
  · exact hs
  · exact pidIntegral_mem _ _ _ _
  · exact hs

/-- Settles O29: Deliver, Reset and the drain store no integral but 0, and the phase arm keeps the range. -/
theorem integralStaysInRange : Obligations.IntegralStaysInRange := by
  have hreset : -100 ≤ ControllerState.reset.integral ∧ ControllerState.reset.integral ≤ 100 := by decide
  refine ⟨hreset, pidIntegral_mem, fun s t hstep hlow hhigh => ?_⟩
  obtain ⟨-, rfl⟩ | ⟨F, rest, -, rfl⟩ | ⟨rest, -, rfl⟩ | ⟨T, rest, u, -, hdrain, harm⟩ := step_cases hstep
  · exact ⟨hlow, hhigh⟩
  · rw [deliver_cs]; exact ⟨hlow, hhigh⟩
  · exact hreset
  · obtain ⟨hcs, -⟩ := drain_frame hdrain
    exact phaseArm_integral_mem harm (by rw [hcs]; exact ⟨hlow, hhigh⟩)

/-! ## The exact ramp (rule R65(c)): O30 -/

/-- Once the multiple of an increment has left the range, one more increment leads further out, so clamping every
partial sum is clamping the last one. -/
theorem clamp_clamp_mul_add (n : Nat) (x : ℚ) :
    clamp (clamp (n * x) (-100) 100 + x) (-100) 100 = clamp ((n + 1) * x) (-100) 100 := by
  have hn : (0 : ℚ) ≤ n := Nat.cast_nonneg n
  have hsucc : ((n : ℚ) + 1) * x = n * x + x := by ring
  rw [hsucc]
  rcases lt_or_ge ((n : ℚ) * x) (-100) with hlow | hlow
  · have hx : x < 0 := by by_contra hc; have := mul_nonneg hn (not_lt.mp hc); linarith
    rw [clamp_of_lt hlow, clamp_of_lt (by linarith), clamp_of_lt (by linarith)]
  · rcases lt_or_ge 100 ((n : ℚ) * x) with hhigh | hhigh
    · have hx : 0 < x := by
        by_contra hc; have := mul_nonpos_of_nonneg_of_nonpos hn (not_lt.mp hc); linarith
      rw [clamp_of_gt (by norm_num) hhigh, clamp_of_gt (by norm_num) (by linarith),
        clamp_of_gt (by norm_num) (by linarith)]
    · rw [clamp_of_mem ⟨hlow, hhigh⟩]

/-- Settles O30, by induction on the number of invocations. -/
theorem exactIntegralRampIsClampedProduct : Obligations.ExactIntegralRampIsClampedProduct := by
  intro e dt n
  induction n with
  | zero => rw [Nat.cast_zero, zero_mul, zero_mul, clamp_of_mem (by norm_num)]; rfl
  | succ n ih =>
    rw [Function.iterate_succ_apply', ih, mul_assoc, mul_assoc, Nat.cast_succ]
    exact clamp_clamp_mul_add n (e * dt)

/-! ## Finiteness (rule R73): O32 -/

theorem abs_mul_le_of_abs_le {x y a b : ℚ} (hx : |x| ≤ a) (hy : |y| ≤ b) : |x * y| ≤ a * b := by
  rw [abs_mul]
  exact mul_le_mul hx hy (abs_nonneg y) ((abs_nonneg x).trans hx)

/-- The time step of an invocation is positive: no quotient has a zero divisor. -/
theorem one_thousandth_le_pidDt (f : NumFormat) (cs : ControllerState) (now : Millis) : 1 / 1000 ≤ pidDt f cs now :=
  (one_thousandth_le_dtFloor f).trans (dtFloor_le_deltaTime f _)

theorem abs_pidDt_le (f : NumFormat) (cs : ControllerState) (now : Millis) : |pidDt f cs now| ≤ 8589935 / 2 :=
  (abs_of_nonneg (le_trans (by norm_num) (one_thousandth_le_pidDt f cs now))).trans_le (pidDt_le f cs now)

section

variable {f : NumFormat} {err : ℚ} {cs : ControllerState} {now : Millis}

/-- The exact product stays below the first binary32 value above 3000 * 4294967.5, a multiple of 2^10. -/
theorem abs_increment_le (herr : |err| ≤ 3000) : |fmul f err (pidDt f cs now)| ≤ 12884902912 :=
  abs_rnd_le_of_isNum (isNum_of_eq_significand f 12582913 10)
    ((abs_mul_le_of_abs_le herr (abs_pidDt_le f cs now)).trans (by norm_num))

theorem abs_accumulated_le (herr : |err| ≤ 3000) (hinteg : |cs.integral| ≤ 100) :
    |fadd f cs.integral (fmul f err (pidDt f cs now))| ≤ 12884903936 :=
  abs_rnd_le_of_isNum (isNum_of_eq_significand f 12582914 10)
    ((abs_add_le _ _).trans (by linarith [abs_increment_le (f := f) (cs := cs) (now := now) herr]))

theorem abs_pTerm_le {k : ℚ} (hk : |k| ≤ 32768) (herr : |err| ≤ 3000) : |pTerm f k err| ≤ 98304000 :=
  abs_rnd_le_of_isNum (isNum_of_eq_significand f 3000 15) ((abs_mul_le_of_abs_le hk herr).trans_eq (by norm_num))

theorem abs_iTerm_le {k integ : ℚ} (hk : |k| ≤ 32768) (hinteg : |integ| ≤ 100) : |iTerm f k integ| ≤ 3276800 :=
  abs_rnd_le_of_isNum (isNum_of_eq_significand f 100 15) ((abs_mul_le_of_abs_le hk hinteg).trans_eq (by norm_num))

theorem abs_errorChange_le {lastError : ℚ} (herr : |err| ≤ 3000) (hlast : |lastError| ≤ 3000) :
    |fsub f err lastError| ≤ 6000 :=
  abs_rnd_le_of_isNum (isNum_of_eq_significand f 6000 0) ((abs_sub err lastError).trans (by linarith))

theorem abs_weightedChange_le {k lastError : ℚ} (hk : |k| ≤ 32768) (herr : |err| ≤ 3000) (hlast : |lastError| ≤ 3000) :
    |fmul f k (fsub f err lastError)| ≤ 196608000 :=
  abs_rnd_le_of_isNum (isNum_of_eq_significand f 6000 15)
    ((abs_mul_le_of_abs_le hk (abs_errorChange_le herr hlast)).trans_eq (by norm_num))

/-- Dividing by at least 0.001 enlarges at most a thousandfold. -/
theorem abs_dTerm_le {k lastError dt : ℚ} (hk : |k| ≤ 32768) (herr : |err| ≤ 3000) (hlast : |lastError| ≤ 3000)
    (hdt : 1 / 1000 ≤ dt) : |dTerm f k err lastError dt| ≤ 196608000000 := by
  refine abs_rnd_le_of_isNum (isNum_of_eq_significand f 6000000 15) ?_
  have hpos : 0 < dt := lt_of_lt_of_le (by norm_num) hdt
  rw [abs_div, abs_of_pos hpos, div_le_iff₀ hpos]
  exact (abs_weightedChange_le hk herr hlast).trans (by linarith)

theorem abs_termSum_le {p i dd : ℚ} (hp : |p| ≤ 98304000) (hi : |i| ≤ 3276800) (hd : |dd| ≤ 196608000000) :
    |termSum f p i dd| ≤ 196709580800 := by
  have hpi : |fadd f p i| ≤ 101580800 :=
    abs_rnd_le_of_isNum (isNum_of_eq_significand f 3100 15) ((abs_add_le p i).trans (by linarith))
  refine abs_rnd_le_of_isNum (isNum_of_eq_significand f 6003100 15) ?_
  exact (abs_add_le _ dd).trans (by linarith)

end

theorem abs_le_of_gainLegal {f : NumFormat} {k : ℚ} (h : gainLegal f k) : |k| ≤ 32768 := by
  obtain ⟨hlow, hhigh, -⟩ := h
  exact abs_le.mpr ⟨hlow, hhigh⟩

/-- Settles O32: each value is bounded from the ones it is formed of, and every bound on the way is a value of the
format, so the rounding keeps it. -/
theorem pidIntermediatesStayFinite : Obligations.PidIntermediatesStayFinite := by
  intro f p cs err now hp hinteg0 hinteg1 hlast0 hlast1 herr0 herr1
  have hinteg : |cs.integral| ≤ 100 := abs_le.mpr ⟨hinteg0, hinteg1⟩
  have hlast : |cs.lastError| ≤ 3000 := abs_le.mpr ⟨hlast0, hlast1⟩
  have herr : |err| ≤ 3000 := abs_le.mpr ⟨herr0, herr1⟩
  obtain ⟨-, hkP, hkD, hkI⟩ := hp
  have hpt := abs_pTerm_le (f := f) (abs_le_of_gainLegal hkP) herr
  have hit := abs_iTerm_le (f := f) (abs_le_of_gainLegal hkI) (abs_le.mpr (pidIntegral_mem f cs err now))
  have hwd := abs_weightedChange_le (f := f) (abs_le_of_gainLegal hkD) herr hlast
  have hdd := abs_dTerm_le (f := f) (abs_le_of_gainLegal hkD) herr hlast (one_thousandth_le_pidDt f cs now)
  exact ⟨(abs_increment_le herr).trans (by norm_num), (abs_accumulated_le herr hinteg).trans (by norm_num),
    hpt.trans (by norm_num), hit.trans (by norm_num), hwd.trans (by norm_num), hdd.trans (by norm_num),
    (abs_termSum_le hpt hit hdd).trans (by norm_num)⟩

/-! ## The worked examples (rules R72, R133): O33 -/

/-- Settles O33: the vectors, evaluated. -/
theorem pidWorkedExamplesHold : Obligations.PidWorkedExamplesHold := by
  refine ⟨by decide +kernel, by decide +kernel, fun f => ?_⟩
  cases f with
  | binary32 => decide +kernel
  | exact => decide +kernel

end Sys2Proof.Machine

/-! PROOFS. The Drive Mixer and the motor polarity (`spec/43_drive_mixer.md` rules R78, R80): O35, O37 and O59. -/

namespace Sys2Proof.Machine

/-! ## The clamp of one side (rules R76, R78) -/

theorem clampSpeed_of_abs_le {n : Int} (h : |n| ≤ 4000) : clampSpeed n = n := clampi_of_mem (abs_le.mp h)

/-- The clamp range is symmetric. -/
theorem clampSpeed_neg (n : Int) : clampSpeed (-n) = -clampSpeed n := by
  rw [clampSpeed_eq, clampSpeed_eq]
  omega

theorem applyPolarity_clampSpeed (pol : Polarity) (n : Int) :
    applyPolarity pol (clampSpeed n) = clampSpeed (applyPolarity pol n) := by
  cases pol with
  | plus => rfl
  | minus => exact (clampSpeed_neg n).symm

/-- Settles O35: both sides are the plain sums, and the correction cancels. -/
theorem mixerKeepsMeanSpeedUnclamped : Obligations.MixerKeepsMeanSpeedUnclamped := by
  intro base corr hleft hright
  calc mixLeft base corr + mixRight base corr
    _ = (base + corr) + (base - corr) :=
      congrArg₂ (· + ·) (clampSpeed_of_abs_le hleft) (clampSpeed_of_abs_le hright)
    _ = 2 * base := by ring

/-- Settles O37, from the symmetry of the clamp range. -/
theorem polarityCommutesWithTheClamp : Obligations.PolarityCommutesWithTheClamp := fun pol x =>
  ⟨applyPolarity_clampSpeed pol x, speedOk_applyPolarity pol (speedOk_clampSpeed x)⟩

/-! ## The other polarity (rules R78, R134)

The two runs of O59 start in `s` and in `s.flipPolarity`. Each operation of a step commutes with `State.flipPolarity`,
and the step is their composition. -/

theorem applyPolarity_otherPolarity (pol : Polarity) (v : Int) :
    applyPolarity (otherPolarity pol) v = -applyPolarity pol v := by
  cases pol with
  | plus => rfl
  | minus => exact (neg_neg v).symm

theorem motorEvent_otherPolarity (pol : Polarity) (l r : Int) :
    motorEvent (otherPolarity pol) l r = (motorEvent pol l r).negateMotor := by
  simp only [motorEvent, applyPolarity_otherPolarity, Event.negateMotor]

/-- `s` as a block of the other polarity has it: the motor commands emitted so far are negated too. -/
def State.flipPolarity (s : State) : State :=
  { s with
    cfg := { s.cfg with pol := otherPolarity s.cfg.pol }
    out := s.out.map Event.negateMotor }

section
variable (s : State)

@[simp] theorem State.flipPolarity_mbox : s.flipPolarity.mbox = s.mbox := rfl

theorem flipPolarity_withInputs (l : List Input) : (s.withInputs l).flipPolarity = s.flipPolarity.withInputs l := rfl

theorem flipPolarity_clearFull : s.clearFull.flipPolarity = s.flipPolarity.clearFull := rfl

theorem flipPolarity_resetStep : (resetStep s).flipPolarity = resetStep s.flipPolarity := rfl

theorem flipPolarity_emit (e : Event) : (s.emit e).flipPolarity = s.flipPolarity.emit e.negateMotor := by
  simp [State.flipPolarity, State.emit]

theorem flipPolarity_deliver (F : Frame) : (deliver F s).flipPolarity = deliver F s.flipPolarity := by
  cases hfull : s.mbox.full
  · rw [deliver_of_empty F hfull, deliver_of_empty F (s := s.flipPolarity) hfull]
    rfl
  · rw [deliver_of_full F hfull, deliver_of_full F (s := s.flipPolarity) hfull]

/-- No frame reads the polarity, and the only event a frame emits is an Echo. -/
theorem flipPolarity_commandWrite {f : State → State} (hf : CommandWrite f) :
    (f s).flipPolarity = f s.flipPolarity := by
  cases hf with
  | echo G => exact flipPolarity_emit s (.echo G)
  | _ => rfl

theorem flipPolarity_tickMotor (m : Mask) (now : Millis) :
    tickMotor s.flipPolarity m now = (tickMotor s m now).negateMotor :=
  motorEvent_otherPolarity s.cfg.pol _ _

/-- The polarity enters the pipeline at the motor command alone: the write of `CS` does not read it. -/
theorem flipPolarity_runPipeline (m : Mask) (now : Millis) :
    (runPipeline s m now).flipPolarity = runPipeline s.flipPolarity m now := by
  simp only [runPipeline, flipPolarity_emit, flipPolarity_tickMotor]
  rfl

end

theorem drain_flipPolarity {s t : State} (h : drain s = .next t) : drain s.flipPolarity = .next t.flipPolarity := by
  cases hfull : s.mbox.full
  · rw [drain_of_empty hfull] at h
    cases h
    exact drain_of_empty hfull
  · obtain ⟨f, hf, hexec⟩ := execFrame_commandWrite s.mbox.data
    rw [drain_of_full hfull, hexec] at h
    cases h
    rw [drain_of_full (s := s.flipPolarity) hfull, State.flipPolarity_mbox, hexec, flipPolarity_commandWrite _ hf,
      flipPolarity_clearFull]

/-- The zero command of a Stopped tick is its own negation. -/
theorem phaseArm_flipPolarity {sb : BitVec 8} {now : Millis} {s t : State} (h : phaseArm sb now s = .next t) :
    phaseArm sb now s.flipPolarity = .next t.flipPolarity := by
  obtain ⟨hp, e⟩ | ⟨hp, e⟩ | ⟨hp, e⟩ := phaseArm_cases sb now s <;> rw [e] at h <;> cases h
  · exact phaseArm_of_idle sb now hp
  · rw [flipPolarity_runPipeline]
    exact phaseArm_of_running sb now hp
  · rw [flipPolarity_emit]
    exact phaseArm_of_stopped sb now hp

theorem step_flipPolarity {s t : State} (h : step s = .next t) : step s.flipPolarity = .next t.flipPolarity := by
  obtain ⟨hin, rfl⟩ | ⟨F, rest, hin, rfl⟩ | ⟨rest, hin, rfl⟩ | ⟨T, rest, u, hin, hdrain, harm⟩ := step_cases h
  · exact step_of_nil hin
  · rw [flipPolarity_deliver, flipPolarity_withInputs]
    exact step_of_deliver hin
  · rw [flipPolarity_resetStep, flipPolarity_withInputs]
    exact step_of_reset hin
  · rw [step_of_tick (s := s.flipPolarity) hin, ← flipPolarity_withInputs, drain_flipPolarity hdrain, thenRun_next]
    exact phaseArm_flipPolarity harm

/-- Settles O59: a step commutes with the change of polarity. -/
theorem polarityOnlyNegatesMotorCommands : Obligations.PolarityOnlyNegatesMotorCommands :=
  fun _ _ => step_flipPolarity

end Sys2Proof.Machine

/-! PROOFS. The Tick (`spec/44_control_loop_tick.md`): O38, O42, O46 and O49. A Tick is its drain followed by its phase
arm, so each statement is put together from what the two do on their own. -/

namespace Sys2Proof.Machine

/-! ## A Tick is its drain and its phase arm (rules R81, R82) -/

theorem exec_tick_of_drain (sb : BitVec 8) (now : Millis) {s t : State} (h : drain s = .next t) :
    exec (.tick sb now) s = phaseArm sb now t := by
  rw [exec_tick, h, thenRun_next]

/-- A Tick always completes, its drain and its phase arm each answering a next state. -/
theorem exec_tick_total (sb : BitVec 8) (now : Millis) (s : State) :
    ∃ t u, drain s = .next t ∧ phaseArm sb now t = .next u ∧ exec (.tick sb now) s = .next u := by
  obtain ⟨t, ht⟩ := drain_total s
  obtain ⟨u, hu⟩ := phaseArm_total sb now t
  exact ⟨t, u, ht, hu, (exec_tick_of_drain sb now ht).trans hu⟩

/-! ## The Running arm, written out (rule R84) -/

theorem sensorMask_eq_setWidth (sb : BitVec 8) : sensorMask sb = sb.setWidth 7 :=
  (BitVec.setWidth_eq_extractLsb' (by decide)).symm

theorem runPipeline_eq (s : State) (m : Mask) (now : Millis) :
    runPipeline s m now =
      { s with
        cs := pidState s.cfg.num s.cs (tickError s m) now
        out := s.out ++ [tickMotor s m now, .ledMirror m] } := by
  rw [runPipeline, State.emit, State.emit, List.append_assoc]
  rfl

/-- Settles O38: the two `CTRL` bits the drain left are the phase, and the phase picks the arm. -/
theorem tickDrainsThenRunsItsPhase : Obligations.TickDrainsThenRunsItsPhase := by
  intro sb now s
  obtain ⟨t, hdrain⟩ := drain_total s
  have htick := exec_tick_of_drain sb now hdrain
  refine ⟨t, hdrain, fun hstarted => ?_, fun hstarted henabled => ?_, fun hstarted henabled => ?_⟩ <;> rw [htick]
  · exact phaseArm_of_idle sb now (t.phase_idle_iff.mpr hstarted)
  · exact phaseArm_of_stopped sb now (t.phase_stopped_iff.mpr ⟨hstarted, henabled⟩)
  · rw [phaseArm_of_running sb now (t.phase_running_iff.mpr ⟨hstarted, henabled⟩), runPipeline_eq,
      sensorMask_eq_setWidth]
    rfl

/-! ## The phase (rule R86) -/

theorem exec_phase {i : Instr} (hport : i.port = .frame) {s t : State} (h : exec i s = .next t) :
    t.phase = phaseAfter s.phase i := by
  cases i with
  | stopCar _ => cases h; exact s.stopMotors_phase
  | tick _ _ => cases hport
  | _ => cases h; rfl

theorem phaseArm_phase {sb : BitVec 8} {now : Millis} {s t : State} (h : phaseArm sb now s = .next t) :
    t.phase = s.phase := by
  obtain ⟨-, hctrl, -⟩ := phaseArm_frame h
  exact congrArg Ctrl.phase hctrl

/-- The drain makes the transition of the frame it executes, and no other. -/
theorem drain_phase {s t : State} (h : drain s = .next t) :
    (s.mbox.full = false → t.phase = s.phase) ∧
    (∀ i, s.mbox.full = true → decodeFrame s.mbox.data = .ok i → t.phase = phaseAfter s.phase i) ∧
    (∀ e, s.mbox.full = true → decodeFrame s.mbox.data = .error e → t.phase = s.phase) := by
  refine ⟨fun hempty => ?_, fun i hfull hi => ?_, fun e hfull he => ?_⟩
  · rw [drain_of_empty hempty] at h
    cases h
    rfl
  · rw [drain_eq_exec hfull hi] at h
    exact exec_phase (s := s.clearFull) (port_of_decodeFrame hi) h
  · rw [drain_of_error hfull he] at h
    cases h
    rfl

/-- Settles O42: of a Tick only the drain moves the phase, Deliver does not touch `CTRL`, and Reset clears it. -/
theorem phaseFollowsItsTransitionTable : Obligations.PhaseFollowsItsTransitionTable := by
  refine ⟨fun s T rest hin => ?_, fun s F rest hin => ?_, fun s rest hin => ?_⟩
  · obtain ⟨t, u, hdrain, harm, hexec⟩ :=
      exec_tick_total (T.extractLsb' 0 8) (T.extractLsb' 8 32) (s.withInputs rest)
    refine ⟨u, (step_eq_exec_decodeTick hin).trans hexec, ?_⟩
    rw [phaseArm_phase harm]
    exact drain_phase (s := s.withInputs rest) hdrain
  · exact ⟨_, step_of_deliver hin, congrArg Ctrl.phase (deliver_ctrl F _)⟩
  · exact ⟨_, step_of_reset hin, resetStep_phase _⟩

/-! ## The events (rules R84, R85, R88, R94) -/

theorem opcode_of_decodeFrame_echo {F : Frame} {p : BitVec 32} (h : decodeFrame F = .ok (.echo p)) :
    frameByte F 0 = 0x03#8 := by
  rw [← (encode_of_decodeFrame h).1, encode, frameByte_zero_append]

theorem exec_out_of_ne_echo {i : Instr} (hport : i.port = .frame) (hecho : ∀ p, i ≠ .echo p) {s t : State}
    (h : exec i s = .next t) : t.out = s.out := by
  cases i with
  | echo p => exact absurd rfl (hecho p)
  | tick _ _ => cases hport
  | _ => cases h; rfl

theorem drain_of_echo {s : State} (hfull : s.mbox.full = true) (hop : frameByte s.mbox.data 0 = 0x03#8) :
    drain s = .next (s.clearFull.emit (.echo s.mbox.data)) := by
  have hi := decodeFrame_of_echo hop
  rw [drain_eq_exec hfull hi, exec, execEcho, (encode_of_decodeFrame hi).1]

theorem drain_out_of_no_echo {s t : State} (h : drain s = .next t)
    (hno : s.mbox.full = false ∨ frameByte s.mbox.data 0 ≠ 0x03#8) : t.out = s.out := by
  cases hfull : s.mbox.full
  · rw [drain_of_empty hfull] at h
    cases h
    rfl
  · have hop : frameByte s.mbox.data 0 ≠ 0x03#8 := hno.resolve_left (by simp [hfull])
    cases hdec : decodeFrame s.mbox.data with
    | error e =>
      rw [drain_of_error hfull hdec] at h
      cases h
      rfl
    | ok i =>
      rw [drain_eq_exec hfull hdec] at h
      refine exec_out_of_ne_echo (s := s.clearFull) (port_of_decodeFrame hdec) ?_ h
      rintro p rfl
      exact hop (opcode_of_decodeFrame_echo hdec)

/-- The drain emits the Echo of an ECHO frame and nothing else. -/
theorem drain_out {s t : State} (h : drain s = .next t) :
    ∃ es : List Event, t.out = s.out ++ es ∧
      (s.mbox.full = true → frameByte s.mbox.data 0 = 0x03#8 → es = [.echo s.mbox.data]) ∧
      (s.mbox.full = false ∨ frameByte s.mbox.data 0 ≠ 0x03#8 → es = []) := by
  by_cases hecho : s.mbox.full = true ∧ frameByte s.mbox.data 0 = 0x03#8
  · obtain ⟨hfull, hop⟩ := hecho
    rw [drain_of_echo hfull hop] at h
    cases h
    exact ⟨_, rfl, fun _ _ => rfl, fun hno => absurd hop (hno.resolve_left (by simp [hfull]))⟩
  · refine ⟨[], ?_, fun hfull hop => absurd ⟨hfull, hop⟩ hecho, fun _ => rfl⟩
    rw [List.append_nil]
    refine drain_out_of_no_echo h ?_
    rwa [not_and_or, Bool.not_eq_true] at hecho

/-- The motor command of a Running tick: each side in range, its front and its back wheel alike (rules R77, R79). -/
theorem tickMotor_form (s : State) (m : Mask) (now : Millis) :
    ∃ l r, speedOk l ∧ speedOk r ∧ tickMotor s m now = .motorCmd l l r r :=
  ⟨_, _, speedOk_applyPolarity _ (speedOk_clampSpeed _), speedOk_applyPolarity _ (speedOk_clampSpeed _), rfl⟩

/-- The events of each phase arm. -/
theorem phaseArm_out {sb : BitVec 8} {now : Millis} {s t : State} (h : phaseArm sb now s = .next t) :
    ∃ fs : List Event, t.out = s.out ++ fs ∧
      (t.phase = .idle → fs = []) ∧
      (t.phase = .stopped → fs = [.motorCmd 0 0 0 0]) ∧
      (t.phase = .running →
        ∃ l r, speedOk l ∧ speedOk r ∧ fs = [.motorCmd l l r r, .ledMirror (sb.setWidth 7)]) := by
  rw [phaseArm_phase h]
  obtain ⟨hp, e⟩ | ⟨hp, e⟩ | ⟨hp, e⟩ := phaseArm_cases sb now s <;> rw [e] at h <;> cases h
  · exact ⟨[], (List.append_nil _).symm, by simp [hp]⟩
  · obtain ⟨l, r, hl, hr, hmotor⟩ := tickMotor_form s (sensorMask sb) now
    refine ⟨[.motorCmd l l r r, .ledMirror (sb.setWidth 7)], ?_, by simp [hp], by simp [hp],
      fun _ => ⟨l, r, hl, hr, rfl⟩⟩
    rw [runPipeline_eq, hmotor, sensorMask_eq_setWidth]
  · exact ⟨[zeroSpeed], rfl, by simp [hp], fun _ => rfl, by simp [hp]⟩

/-- Settles O46: the events of the drain, then those of the phase arm. -/
theorem tickEventsComeInOrder : Obligations.TickEventsComeInOrder := by
  intro sb now s
  obtain ⟨t, u, hdrain, harm, hexec⟩ := exec_tick_total sb now s
  obtain ⟨es, hes, hecho, hno⟩ := drain_out hdrain
  obtain ⟨fs, hfs, harms⟩ := phaseArm_out harm
  exact ⟨u, es, fs, hexec, by rw [hfs, hes], hecho, hno, harms⟩

/-! ## Idle Ticks (rule R83) -/

theorem step_of_tick_of_idle_of_empty {s : State} {T : Frame} {rest : List Input} (hin : s.inputs = .tick T :: rest)
    (hidle : s.phase = .idle) (hempty : s.mbox.full = false) : step s = .next (s.withInputs rest) :=
  (step_of_tick_of_empty hin hempty).trans (phaseArm_of_idle (s := s.withInputs rest) _ _ hidle)

/-- Settles O49, by induction on the Ticks: each only uses up its place in the schedule. -/
theorem idleTicksDoNothing : Obligations.IdleTicksDoNothing := by
  intro ts
  induction ts with
  | nil =>
    rintro s rest - - rfl
    rfl
  | cons T ts ih =>
    intro s rest hidle hempty hin
    calc core.run (ts.length + 1) s
        = core.run ts.length (s.withInputs (ts.map Input.tick ++ rest)) :=
          run_succ _ (step_of_tick_of_idle_of_empty hin hidle hempty)
      _ = .next { s with inputs := rest } := ih (s.withInputs _) rest hidle hempty rfl

end Sys2Proof.Machine

/-! PROOFS. The Command Channel (`spec/45_command_channel.md`): O10 to O16, O18 and O45. What a frame writes comes from
`CommandWrite`, the row a frame matches from its bytes, and the value a TUNE stores from the range of its clamp. -/

namespace Sys2Proof.Machine

/-! ## START_CAR and STOP_CAR (rules R92, R93): O10, O11 -/

theorem State.startMotors_of_running {s : State} (h : s.phase = .running) : s.startMotors = s := by
  obtain ⟨hstarted, henabled⟩ := s.phase_running_iff.mp h
  have hctrl : s.ctrl = ⟨true, true⟩ := congrArg₂ Ctrl.mk hstarted henabled
  rw [State.startMotors, ← hctrl]

theorem State.stopMotors_of_disabled {s : State} (h : s.ctrl.motorsEnabled = false) : s.stopMotors = s := by
  rw [State.stopMotors, ← h]

/-- Settles O10: the write is of the two bits, which phase Running has set already. -/
theorem startCarSetsBothEnableBits : Obligations.StartCarSetsBothEnableBits :=
  ⟨fun _ _ => rfl, fun _ _ hrun => congrArg _ (State.startMotors_of_running hrun),
    fun _ h0 h1 => ⟨_, decodeFrame_of_startCar h0 h1⟩⟩

/-- Settles O11: the write is of the one bit, and it leaves phase Idle alone. -/
theorem stopCarClearsMotorsEnabledOnly : Obligations.StopCarClearsMotorsEnabledOnly :=
  ⟨fun _ _ => rfl, fun _ s hidle => ⟨_, rfl, s.stopMotors_phase.trans (if_pos hidle)⟩,
    fun _ h0 h1 => ⟨_, decodeFrame_of_stopCar h0 h1⟩⟩

/-! ## ECHO (rule R94): O12 -/

/-- Settles O12: the payload and the opcode are the whole frame, and its event is appended before the phase arm runs. -/
theorem echoEmitsItsFrame : Obligations.EchoEmitsItsFrame := by
  intro F p hdec
  refine ⟨fun s => ?_, fun sb now s hfull hdata => ?_⟩
  · obtain ⟨henc, -⟩ := encode_of_decodeFrame hdec
    rw [exec, execEcho, henc]
    rfl
  · subst hdata
    exact exec_tick_of_drain sb now (drain_of_echo hfull (opcode_of_decodeFrame_echo hdec))

/-! ## The frames of TUNE by mask and match (rules R44, R52) -/

theorem and_lowerBytes (F : Frame) :
    F &&& 0x0000FFFFFF#40 = 0#16 ++ frameByte F 2 ++ frameByte F 1 ++ frameByte F 0 :=
  calc F &&& 0x0000FFFFFF#40
      = (F.extractLsb' 24 16 ++ frameByte F 2 ++ frameByte F 1 ++ frameByte F 0) &&& 0x0000FFFFFF#40 := by
        rw [value_append_bytes]
    _ = 0#16 ++ frameByte F 2 ++ frameByte F 1 ++ frameByte F 0 := Laws.TableRow.and_lower_three 16 _ _ _ _

theorem bytes_eq_of_append_eq {x y : BitVec 16} {a b c a' b' c' : Byte}
    (h : x ++ a ++ b ++ c = y ++ a' ++ b' ++ c') : a = a' ∧ b = b' ∧ c = c' := by
  refine ⟨?_, ?_, ?_⟩
  · rw [← frameByte_two_append x a b c, h, frameByte_two_append]
  · rw [← frameByte_one_append (x ++ a) b c, h]
    exact frameByte_one_append _ _ _
  · rw [← frameByte_zero_append (x ++ a ++ b) c, h]
    exact frameByte_zero_append _ _

/-- A frame that matches the row of a parameter is the TUNE of that parameter, whatever its upper two bytes are. -/
theorem decodeFrame_of_tuneMatch (p : Param) {F : Frame}
    (h : F &&& 0x0000FFFFFF#40 = 0#16 ++ paramIndex p ++ Config.subTune ++ 0x02#8) :
    decodeFrame F = .ok (tuneInstr p (tuneValue F)) := by
  rw [and_lowerBytes] at h
  obtain ⟨h2, h1, h0⟩ := bytes_eq_of_append_eq h
  exact decodeFrame_of_tune h0 h1 h2

/-! ## The stored value of a TUNE (rules R95-R100): O13, O14, O15 -/

theorem toInt_ofInt_of_tuneValueOk {w : Int} (h : tuneValueOk w) : (BitVec.ofInt 16 w).toInt = w :=
  BitVec.toInt_ofInt_eq_self (by decide) h.1 (Int.lt_add_one_of_le h.2)

theorem toNat_ofInt_of_nonneg {w : Int} (h0 : 0 ≤ w) (h : w ≤ 32767) : ((BitVec.ofInt 16 w).toNat : Int) = w := by
  rw [BitVec.toNat_ofInt]; omega

theorem i2f_tuneOperand {c : Config} (h : c.wf) (i : Param) (v : Int) :
    i2f c.num (tuneOperand c i v) = tuneOperand c i v :=
  i2f_of_tuneValueOk c.num (tuneValueOk_tuneOperand h i v)

/-- Settles O13: the clamped value is a signed 16-bit integer, so its word reads back as it is. -/
theorem tuneBaseStoresSignedValue : Obligations.TuneBaseStoresSignedValue := by
  refine ⟨fun F h => decodeFrame_of_tuneMatch .baseSpeed h, fun v s hwf => ?_, fun w s hlo hhi hmin hmax => ?_⟩
  · exact ⟨_, rfl, toInt_ofInt_of_tuneValueOk (tuneValueOk_tuneOperand hwf .baseSpeed v)⟩
  · have hclamp : tuneOperand s.cfg .baseSpeed w = w := clampi_of_mem ⟨hlo, hhi⟩
    exact ⟨_, rfl, by rw [hclamp, toInt_ofInt_of_tuneValueOk ⟨hmin, hmax⟩]⟩

/-- Settles O14: the legal bounds are not negative, so a negative value is clamped to the lower one before the word is
formed. -/
theorem tuneMaxCorrectionStoresUnsignedValue : Obligations.TuneMaxCorrectionStoresUnsignedValue := by
  refine ⟨fun F h => decodeFrame_of_tuneMatch .maxCorrection h, fun v s hwf => ?_⟩
  have hmax := (tuneValueOk_tuneOperand hwf .maxCorrection v).2
  have hnonneg := tuneOperand_maxCorrection_nonneg hwf v
  have hstored := toNat_ofInt_of_nonneg hnonneg hmax
  have hlower : v < 0 → tuneOperand s.cfg .maxCorrection v = s.cfg.tuneMaxCorrection.lo := by
    obtain ⟨-, -, ⟨-, hlo⟩, -⟩ := hwf
    exact fun hneg => clampi_of_lt (hneg.trans_le hlo)
  refine ⟨_, rfl, hstored, toNat_ofInt_le_of_nonneg hnonneg hmax, fun hneg => hstored.trans (hlower hneg),
    fun hdefault hneg => ?_⟩
  rw [hlower hneg, hdefault]
  rfl

/-- Settles O15: a clamped value is an integer every format holds, so `i2f` stores it as it is. -/
theorem tuneGainStoresExactInteger : Obligations.TuneGainStoresExactInteger := by
  have hkI (v : Int) (s : State) (hwf : s.cfg.wf) : exec (.tuneKi v) s =
      .next { s with p := { s.p with kI := (clampi v s.cfg.tuneKI.lo s.cfg.tuneKI.hi : Int) } } :=
    congrArg (fun k => (.next { s with p := { s.p with kI := k } } : Result)) (i2f_tuneOperand hwf .kI v)
  refine ⟨fun F => ⟨decodeFrame_of_tuneMatch .kP, decodeFrame_of_tuneMatch .kD, decodeFrame_of_tuneMatch .kI⟩,
    fun v s hwf => ⟨?_, ?_, hkI v s hwf⟩, fun sb now v s hwf hfull hdec => ⟨s.mbox.data, ?_⟩⟩
  · exact congrArg (fun k => (.next { s with p := { s.p with kP := k } } : Result)) (i2f_tuneOperand hwf .kP v)
  · exact congrArg (fun k => (.next { s with p := { s.p with kD := k } } : Result)) (i2f_tuneOperand hwf .kD v)
  · exact exec_tick_of_drain sb now ((drain_eq_exec hfull hdec).trans (hkI v s.clearFull hwf))

/-! ## The default bounds (rule R95): O16 -/

theorem clampi_ne_self_iff {v lo hi : Int} (h : lo ≤ hi) : clampi v lo hi ≠ v ↔ v < lo ∨ hi < v := by
  rw [clampi_eq_max_min h]; omega

theorem tuneOperand_of_int16 {c : Config} {i : Param} {v : Int} (hb : c.bounds i = .int16) (hv : tuneValueOk v) :
    tuneOperand c i v = v := by
  rw [tuneOperand, hb]
  exact clampi_of_mem hv

/-- Settles O16: the default bounds of every index but 1 are the whole range of a transported value. -/
theorem defaultBoundsChangeOnlyNegativeMaxCorrection : Obligations.DefaultBoundsChangeOnlyNegativeMaxCorrection := by
  intro c i v hv hBase hMaxc hKP hKD hKI
  cases i with
  | maxCorrection =>
    rw [tuneOperand, Config.bounds, hMaxc, clampi_ne_self_iff (by decide)]
    exact ⟨fun h => ⟨rfl, h.resolve_right hv.2.not_gt⟩, fun h => .inl h.2⟩
  | baseSpeed => simp [tuneOperand_of_int16 (i := .baseSpeed) hBase hv]
  | kP => simp [tuneOperand_of_int16 (i := .kP) hKP hv]
  | kD => simp [tuneOperand_of_int16 (i := .kD) hKD hv]
  | kI => simp [tuneOperand_of_int16 (i := .kI) hKI hv]

/-! ## Repeated commands (rule R103): O18 -/

section
variable {s : State} {i : Instr}

theorem Params.store_store (f : NumFormat) (p : Params) (j : Param) (w : Int) :
    Params.store f (Params.store f p j w) j w = Params.store f p j w := by
  cases j <;> rfl

theorem State.tune_repeated {s0 : State} {j : Param} {v : Int} (hp : s.p = (s0.tune j v).p)
    (hcfg : s.cfg = (s0.tune j v).cfg) : s.tune j v = s := by
  have hstore : Params.store s.cfg.num s.p j (tuneOperand s.cfg j v) = s.p := by
    rw [hp, hcfg]
    exact Params.store_store _ _ _ _
  rw [State.tune, hstore]

/-- A write that is no Echo changes nothing where the parameters and the flags are already as it left them. -/
theorem CommandWrite.repeated {f : State → State} (hf : CommandWrite f) {s0 : State} (hout : (f s0).out = s0.out)
    (hp : s.p = (f s0).p) (hctrl : s.ctrl = (f s0).ctrl) (hcfg : s.cfg = (f s0).cfg) : f s = s := by
  cases hf with
  | start => exact State.startMotors_of_running (congrArg Ctrl.phase hctrl)
  | stop => exact State.stopMotors_of_disabled (congrArg Ctrl.motorsEnabled hctrl)
  | tune j v => exact State.tune_repeated hp hcfg
  | echo G => simp at hout
  | drop => rfl

theorem exec_repeated (hport : i.port = .frame) (hecho : ∀ p, i ≠ .echo p) {s0 t : State} (h : exec i s0 = .next t)
    (hp : s.p = t.p) (hctrl : s.ctrl = t.ctrl) (hcfg : s.cfg = t.cfg) : exec i s = .next s := by
  obtain ⟨f, hf, hexec⟩ := exec_commandWrite hport
  have hout := exec_out_of_ne_echo hport hecho h
  rw [hexec] at h
  cases h
  rw [hexec, hf.repeated hout hp hctrl hcfg]

/-- The Tick that drains a frame without effect is a Tick with an empty mailbox. -/
theorem exec_tick_of_exec_eq_self (sb : BitVec 8) (now : Millis) (hfull : s.mbox.full = true)
    (hdec : decodeFrame s.mbox.data = .ok i) (h : exec i s.clearFull = .next s.clearFull) :
    exec (.tick sb now) s = exec (.tick sb now) s.clearFull := by
  rw [exec_tick_of_drain sb now ((drain_eq_exec hfull hdec).trans h),
    exec_tick_of_drain sb now (drain_of_empty (s := s.clearFull) rfl)]

end

/-- Settles O18: a repeated command finds what it writes already there, and then the drain only clears the flag. -/
theorem repeatedCommandsAreIdempotent : Obligations.RepeatedCommandsAreIdempotent := by
  refine ⟨fun x sb now s hphase hfull hdec => ?_, fun x sb now s hphase hfull hdec => ?_,
    fun i s t hport hecho h => exec_repeated hport hecho h rfl rfl rfl,
    fun i sb now s0 t s hport hecho h hp hctrl hcfg hfull hdec => ?_⟩
  · exact exec_tick_of_exec_eq_self sb now hfull hdec
      (congrArg _ (State.stopMotors_of_disabled (s := s.clearFull) (s.phase_stopped_iff.mp hphase).2))
  · exact exec_tick_of_exec_eq_self sb now hfull hdec
      (congrArg _ (State.startMotors_of_running (s := s.clearFull) hphase))
  · exact exec_tick_of_exec_eq_self sb now hfull hdec (exec_repeated (s := s.clearFull) hport hecho h hp hctrl hcfg)

/-! ## The writers of `P` and `CTRL` (rule R104): O45 -/

@[simp] theorem deliver_p (F : Frame) (s : State) : (deliver F s).p = s.p := by
  cases h : s.mbox.full
  · rw [deliver_of_empty F h, State.fillMailbox_p]
  · rw [deliver_of_full F h]

/-- No write of a frame reads `CS`. -/
theorem CommandWrite.with_cs {f : State → State} (hf : CommandWrite f) (s : State) (c : ControllerState) :
    f { s with cs := c } = { f s with cs := c } := by
  cases hf <;> rfl

/-- A Tick with nothing pending writes neither `P` nor `CTRL`: its drain does nothing, and its phase arm is the
datapath. -/
theorem full_of_tick_writes {sb : BitVec 8} {now : Millis} {s u t : State} (hdrain : drain s = .next u)
    (harm : phaseArm sb now u = .next t) (hne : t.p ≠ s.p ∨ t.ctrl ≠ s.ctrl) : s.mbox.full = true := by
  by_contra hempty
  rw [drain_of_empty (Bool.eq_false_of_not_eq_true hempty)] at hdrain
  cases hdrain
  obtain ⟨hp, hctrl, -⟩ := phaseArm_frame harm
  exact hne.elim (absurd hp) (absurd hctrl)

/-- Settles O45, by the case of the step's input: of a Tick only the drained frame writes `P` or `CTRL`. -/
theorem parametersHaveOneWriter : Obligations.ParametersHaveOneWriter := by
  refine ⟨fun i s t c hport h => ?_, fun sb now s t u hdrain h => ?_, fun s t hstep hne => ?_⟩
  · obtain ⟨f, hf, hexec⟩ := exec_commandWrite hport
    rw [hexec] at h
    cases h
    exact ⟨hf.cs_eq s, by rw [hexec, hf.with_cs]⟩
  · rw [exec_tick_of_drain sb now hdrain] at h
    obtain ⟨hp, hctrl, -⟩ := phaseArm_frame h
    exact ⟨hp, hctrl⟩
  · obtain ⟨-, rfl⟩ | ⟨F, rest, -, rfl⟩ | ⟨rest, hin, -⟩ | ⟨T, rest, u, hin, hdrain, harm⟩ := step_cases hstep
    · simp at hne
    · simp at hne
    · exact .inr ⟨rest, hin⟩
    · exact .inl ⟨T, rest, hin, full_of_tick_writes (s := s.withInputs rest) hdrain harm hne⟩

end Sys2Proof.Machine

/-! PROOFS. The exceptional events (`spec/60_exceptions.md` rules R109, R110): O25 and O55. -/

namespace Sys2Proof.Machine

/-! ## The clock (rules R63, R110, R131): O25. The quotient is below the floor for no count but 0. -/

theorem elapsedMs_eq_zero_iff {last now : Millis} : elapsedMs last now = 0 ↔ now = last := by
  rw [elapsedMs]
  bv_omega

theorem elapsedMs_sub_one (last : Millis) : elapsedMs last (last - 1#32) = 2 ^ 32 - 1 := by
  rw [elapsedMs, sub_sub_cancel_left]
  rfl

/-- A stalled clock is floored: its quotient is 0. -/
theorem rawDeltaTime_zero_lt_dtFloor (f : NumFormat) : rawDeltaTime f 0 < dtFloor f := by
  have hzero : rawDeltaTime f 0 = 0 := by simp [rawDeltaTime, fdiv, i2f]
  rw [hzero]
  exact lt_of_lt_of_le (by norm_num) (one_thousandth_le_dtFloor f)

/-- One millisecond is already not below the floor: both are the rounding of 0.001. -/
theorem dtFloor_le_rawDeltaTime (f : NumFormat) {d : Nat} (h : d ≠ 0) : dtFloor f ≤ rawDeltaTime f d := by
  have hcount : ((1 : Int) : ℚ) ≤ i2f f d :=
    intCast_le_rnd f (by decide) (by exact_mod_cast Nat.one_le_iff_ne_zero.mpr h)
  refine rnd_mono f ?_
  unfold Config.dtMin Config.msPerS
  push_cast at hcount
  linarith

theorem rawDeltaTime_lt_dtFloor_iff (f : NumFormat) (d : Nat) : rawDeltaTime f d < dtFloor f ↔ d = 0 := by
  constructor
  · exact fun hlt => by_contra fun hne => (dtFloor_le_rawDeltaTime f hne).not_gt hlt
  · rintro rfl
    exact rawDeltaTime_zero_lt_dtFloor f

theorem deltaTime_zero (f : NumFormat) : deltaTime f 0 = dtFloor f :=
  if_pos ((flt_iff _ _).mpr (rawDeltaTime_zero_lt_dtFloor f))

theorem deltaTime_of_ne_zero (f : NumFormat) {d : Nat} (h : d ≠ 0) : deltaTime f d = rawDeltaTime f d :=
  if_neg fun hlt => h ((rawDeltaTime_lt_dtFloor_iff f d).mp ((flt_iff _ _).mp hlt))

/-- A count of two seconds is exact in either format, and rounding a larger one does not take it below. -/
theorem two_le_deltaTime (f : NumFormat) {d : Nat} (h : 2000 ≤ d) : 2 ≤ deltaTime f d := by
  have hcount : ((2000 : Int) : ℚ) ≤ i2f f d := intCast_le_rnd f (by decide) (by exact_mod_cast h)
  have hquotient : ((2 : Int) : ℚ) ≤ i2f f d / Config.msPerS := by
    unfold Config.msPerS
    push_cast at hcount ⊢
    linarith
  rw [deltaTime_of_ne_zero f (by omega)]
  exact_mod_cast intCast_le_rnd f (by decide) hquotient

theorem dtFloor_lt_pidDt_of_step_back (f : NumFormat) {cs : ControllerState} {now : Millis}
    (h : now = cs.lastTimestampMs - 1#32) : dtFloor f < pidDt f cs now := by
  rw [pidDt, h, elapsedMs_sub_one]
  calc dtFloor f ≤ 1 := dtFloor_le_one f
    _ < 2 := by norm_num
    _ ≤ deltaTime f (2 ^ 32 - 1) := two_le_deltaTime f (by norm_num)

/-- Settles O25: only the count 0 is floored, it is the count of a stalled clock alone, and the step back of one
millisecond is the largest count. -/
theorem floorFiresExactlyOnStalledClock : Obligations.FloorFiresExactlyOnStalledClock := by
  intro f p cs err now
  refine ⟨(rawDeltaTime_lt_dtFloor_iff f _).trans elapsedMs_eq_zero_iff, fun hstall => ?_, fun hback => ?_⟩
  · have hdt : pidDt f cs now = rnd f (1 / 1000) := by
      rw [pidDt, elapsedMs_eq_zero_iff.mpr hstall, deltaTime_zero]
      rfl
    exact ⟨hdt, by rw [pidState, pidIntegral, hdt], by rw [pidSum, pidIntegral, hdt]⟩
  · exact ⟨by rw [hback, elapsedMs_sub_one], dtFloor_lt_pidDt_of_step_back f hback⟩

/-! ## Totality (rule R109): O55 -/

theorem exec_total (i : Instr) (s : State) : ∃ t, exec i s = .next t := by
  cases hport : i.port with
  | frame =>
    obtain ⟨f, -, hexec⟩ := exec_commandWrite hport
    exact ⟨f s, hexec s⟩
  | tick =>
    cases i with
    | tick sb now =>
      obtain ⟨-, u, -, -, hu⟩ := exec_tick_total sb now s
      exact ⟨u, hu⟩
    | _ => cases hport

theorem step_total (s : State) : ∃ t, step s = .next t := by
  rcases hin : s.inputs with _ | ⟨i, rest⟩
  · exact ⟨_, step_of_nil hin⟩
  · cases i with
    | deliver F => exact ⟨_, step_of_deliver hin⟩
    | reset => exact ⟨_, step_of_reset hin⟩
    | tick T =>
      rw [step_eq_exec_decodeTick hin]
      exact exec_total _ _

/-- Settles O55, by the port of the instruction and by the case of the step's input. -/
theorem nothingTrapsOrHalts : Obligations.NothingTrapsOrHalts := ⟨exec_total, step_total⟩

end Sys2Proof.Machine

/-! PROOFS. Reset and the hazards (`spec/70_reset_and_hazards.md`): O27, O28, O36, O47, O48 and O53. -/

namespace Sys2Proof.Machine

/-! ## Stopped Ticks (rule R127): O48 -/

theorem step_of_tick_of_stopped_of_empty {s : State} {T : Frame} {rest : List Input} (hin : s.inputs = .tick T :: rest)
    (hstopped : s.phase = .stopped) (hempty : s.mbox.full = false) :
    step s = .next ((s.withInputs rest).emit zeroSpeed) :=
  (step_of_tick_of_empty hin hempty).trans (phaseArm_of_stopped (s := s.withInputs rest) _ _ hstopped)

/-- Settles O48, by induction on the Ticks: each uses up its place in the schedule and appends one zero command. -/
theorem stoppedTicksFreezeTheController : Obligations.StoppedTicksFreezeTheController := by
  intro ts
  induction ts with
  | nil =>
    rintro s rest - - rfl
    simp [Host.Core.run]
  | cons T ts ih =>
    intro s rest hstopped hempty hin
    calc core.run (ts.length + 1) s
        = core.run ts.length ((s.withInputs (ts.map Input.tick ++ rest)).emit zeroSpeed) :=
          run_succ _ (step_of_tick_of_stopped_of_empty hin hstopped hempty)
      _ = .next { s with inputs := rest, out := s.out ++ [zeroSpeed] ++ List.replicate ts.length zeroSpeed } :=
          ih ((s.withInputs _).emit zeroSpeed) rest hstopped hempty rfl
      _ = .next { s with inputs := rest, out := s.out ++ List.replicate (ts.length + 1) zeroSpeed } := by
          rw [List.append_assoc]
          rfl

/-! ## The lost line (rule R128): O47 -/

/-- The error of an integer position that both formats hold is its negation (rule R62). -/
theorem errorOf_intCast (f : NumFormat) {n : Int} (h : |n| ≤ 2 ^ 24) : errorOf f n = -n := by
  rw [errorOf, fsub, zero_sub, rnd_neg, rnd_intCast f h]

theorem tickError_zero_of_neg {s : State} (h : s.cs.lastError < 0) : tickError s 0#7 = 3000 := by
  rw [tickError, est_zero, lostLine_of_neg h]
  exact_mod_cast errorOf_intCast s.cfg.num (n := -3000) (by decide)

theorem tickError_zero_of_nonneg {s : State} (h : 0 ≤ s.cs.lastError) : tickError s 0#7 = -3000 := by
  rw [tickError, est_zero, lostLine_of_nonneg h]
  exact_mod_cast errorOf_intCast s.cfg.num (n := 3000) (by decide)

/-- Settles O47: a Running Tick stores the error of its own mask, and on the zero mask its sign is opposite to that of
the error stored before. -/
theorem lostLineAlternates : Obligations.LostLineAlternates := by
  intro sb now s hrun hempty hmask
  rw [← sensorMask_eq_setWidth] at hmask
  refine ⟨runPipeline s 0#7 now, ?_, tickError_zero_of_neg, tickError_zero_of_nonneg⟩
  rw [exec_tick_of_drain sb now (drain_of_empty hempty), phaseArm_of_running sb now hrun, hmask]

/-! ## The clock (rules R131, R132): O27, O28 -/

/-- Settles O27: the last timestamp cancels, and what is left is the interval as a 32-bit word. -/
theorem counterWrapIsInvisible : Obligations.CounterWrapIsInvisible := by
  intro last n
  rw [elapsedMs, add_sub_cancel_left, BitVec.toNat_ofNat]

theorem elapsedMs_sub_ofNat (last : Millis) {k : Nat} (hpos : 0 < k) (hlt : k < 2 ^ 32) :
    elapsedMs last (last - BitVec.ofNat 32 k) = 2 ^ 32 - k := by
  rw [elapsedMs, sub_sub_cancel_left, BitVec.toNat_neg, BitVec.toNat_ofNat, Nat.mod_eq_of_lt hlt]
  omega

theorem rawDeltaTime_eq (f : NumFormat) (d : Nat) : rawDeltaTime f d = rnd f (rnd f (d : ℚ) / 1000) := by
  rw [← Int.cast_natCast]
  rfl

/-- 4294901760 = 65535 * 2 ^ 16 is a count both formats hold and 4294901 a quotient both hold, so rounding the largest
count and its quotient takes neither below them. -/
theorem lt_rawDeltaTime_max (f : NumFormat) : 4290000 < rawDeltaTime f (2 ^ 32 - 1) := by
  have hcount : 4294901760 ≤ rnd f ((2 ^ 32 - 1 : Nat) : ℚ) :=
    (isNum_of_eq_significand f 65535 16).symm.trans_le (rnd_mono f (by norm_num))
  have hquotient : ((4294901 : Int) : ℚ) ≤ rnd f ((2 ^ 32 - 1 : Nat) : ℚ) / 1000 := by
    push_cast at hcount ⊢
    linarith
  rw [rawDeltaTime_eq]
  exact lt_of_lt_of_le (by norm_num) (intCast_le_rnd f (by decide) hquotient)

/-- Settles O28: a step back reads as a count above 0, and only the count 0 is floored. -/
theorem backwardClockIsNotFloored : Obligations.BackwardClockIsNotFloored := by
  refine ⟨fun f last k hpos hlt => ?_, fun f last => ⟨elapsedMs_sub_one last, ?_⟩⟩
  · have helapsed := elapsedMs_sub_ofNat last hpos hlt
    have hne : 2 ^ 32 - k ≠ 0 := by omega
    refine ⟨helapsed, (dtFloor_le_rawDeltaTime f hne).not_gt, ?_⟩
    rw [helapsed, deltaTime_of_ne_zero f hne, rawDeltaTime_eq, Nat.cast_sub hlt.le, Nat.cast_pow, Nat.cast_ofNat]
  · rw [elapsedMs_sub_one, deltaTime_of_ne_zero f (by decide)]
    exact lt_rawDeltaTime_max f

/-! ## The saturated base (rule R135): O36 -/

theorem clampSpeed_of_ge {n : Int} (h : 4000 ≤ n) : clampSpeed n = 4000 := by
  rw [clampSpeed_eq]
  omega

theorem clampSpeed_of_le {n : Int} (h : n ≤ -4000) : clampSpeed n = -4000 := by
  rw [clampSpeed_eq]
  omega

/-- Settles O36: on either sign of the base both sums are at or beyond the same bound of the motor range. -/
theorem saturatedBaseCannotSteer : Obligations.SaturatedBaseCannotSteer := by
  intro base corr m hbase hcorr
  obtain ⟨hlow, hhigh⟩ := abs_le.mp hcorr
  obtain hforward | hbackward := le_abs.mp hbase
  · rw [mixLeft, mixRight, clampSpeed_of_ge (by omega), clampSpeed_of_ge (by omega)]
  · rw [mixLeft, mixRight, clampSpeed_of_le (by omega), clampSpeed_of_le (by omega)]

/-! ## Reset (rule R122): O53 -/

/-- Settles O53: the step takes the Reset off the schedule and writes the reset values. -/
theorem resetRestoresEveryElement : Obligations.ResetRestoresEveryElement := fun s rest hin =>
  ⟨resetStep (s.withInputs rest), step_of_reset hin, rfl, rfl, rfl, rfl, rfl, rfl, rfl, rfl⟩

end Sys2Proof.Machine
